-- ==== Sys2Proof/Word.lean ====
section
/-! DEFINITION. The two word types of the CORE (00_scope.md R6, R9; 10_state.md R25). -/

namespace Sys2Proof

/-- A byte: every register, memory cell, flag byte and operand byte is one (00_scope.md R9). -/
abbrev Byte := BitVec 8

/-- The program counter and every address that a fault records: 9 bits (10_state.md R25, R31). -/
abbrev PcWord := BitVec 9

end Sys2Proof
end

