-- ==== Sys2Proof/Machine/Flags.lean ====
section
/-! DEFINITION. The Flags register: the one computation that writes it, and its bits (10_state.md R27). -/

namespace Sys2Proof.Machine

/-- What CMP leaves in flags, the whole byte: EQ (bit 0), GT (bit 1) or LT (bit 2), by an unsigned comparison
(41_alu.md R123). -/
def compareFlags (x y : Byte) : Byte :=
  if x.toNat = y.toNat then 0b00000001
  else if y.toNat < x.toNat then 0b00000010
  else 0b00000100

/-- flags bit 0, EQ: the only bit JEQ and JNE read (43_control_flow.md R161, R162). -/
def flagEq (flags : Byte) : Bool := flags.getLsbD 0

/-- flags bit 1, GT. No instruction reads it. -/
def flagGt (flags : Byte) : Bool := flags.getLsbD 1

/-- flags bit 2, LT. No instruction reads it. -/
def flagLt (flags : Byte) : Bool := flags.getLsbD 2

end Sys2Proof.Machine
end

