-- ==== Sys2Proof/Config.lean ====
section
/-! DEFINITION. The CORE's fixed sizes (00_scope.md R6). They are not configuration: the CORE's one open parameter,
STEP_LIMIT, is an argument the host sends with Run and stands in `Machine.State.stepLimit` (log 1). No value is left
free, so this file holds no opaque constant. -/

namespace Sys2Proof.Config

/-- Memory has 256 cells, addresses 0 to 255 (00_scope.md R6, 20_memory.md R50). -/
abbrev memorySize : Nat := 256

/-- There are 8 general registers, indices 0 to 7 (00_scope.md R6, 10_state.md R20). -/
abbrev registerCount : Nat := 8

/-- Register 7 is the stack pointer (10_state.md R23). -/
abbrev spIndex : Fin registerCount := 7

/-- The reset value of the stack pointer (10_state.md R24). -/
abbrev spReset : Byte := 0xF4

/-- What a cell holds at reset, and so what an unlisted address reads as (20_memory.md R50). -/
abbrev memoryResetByte : Byte := 0x00

end Sys2Proof.Config
end

