-- ==== Sys2Proof/Syntax.lean ====
section
/-! DEFINITION. The instructions: one constructor per row of spec/opcode_table.json (30_encoding.md R72). -/

namespace Sys2Proof

/-- The 13 instructions of the CORE. `a` and `b` are register-index operands, held as the WHOLE operand byte
(30_encoding.md R74): values 8 to 255 are no register, and executing them raises InvalidRegister. `imm` is LDI's
immediate, any byte. -/
inductive Instr where
  | hlt
  | ldi  (a imm : Byte)
  | prn  (a : Byte)
  | add  (a b : Byte)
  | mul  (a b : Byte)
  | push (a : Byte)
  | pop  (a : Byte)
  | ret
  | call (a : Byte)
  | cmp  (a b : Byte)
  | jmp  (a : Byte)
  | jeq  (a : Byte)
  | jne  (a : Byte)
deriving DecidableEq, Repr

/-- The fetch latches of one cycle: the bytes at pc, pc+1 and pc+2 (10_state.md R34, 40_execution_loop.md R102). -/
structure Window where
  ir : Byte
  a  : Byte
  b  : Byte
deriving DecidableEq, Repr

/-- Why a byte is no opcode (30_encoding.md R77). -/
inductive DecodeError where
  /-- bit 5 is set and the byte is not in the ALU table (40_execution_loop.md R104) -/
  | unsupportedALUOperation
  /-- bit 5 is clear and the byte is not in the dispatch table (40_execution_loop.md R105) -/
  | invalidInstruction
deriving DecidableEq, Repr

end Sys2Proof
end

