-- ==== Sys2Proof/WellFormed.lean ====
section
/-! DEFINITION. Which instructions name only registers that exist (10_state.md R22, 30_encoding.md R73).
An ill-formed instruction still decodes: executing it raises InvalidRegister. -/

namespace Sys2Proof

/-- The register operands that an instruction's format names, in the order they are checked: none for F0, `a` for F1R
and F2RI, `a` then `b` for F2RR (30_encoding.md R73). -/
def Instr.registerOperands : Instr → List Byte
  | .hlt => []
  | .ldi a _ => [a]
  | .prn a => [a]
  | .add a b => [a, b]
  | .mul a b => [a, b]
  | .push a => [a]
  | .pop a => [a]
  | .ret => []
  | .call a => [a]
  | .cmp a b => [a, b]
  | .jmp a => [a]
  | .jeq a => [a]
  | .jne a => [a]

/-- Every register operand is an index in [0,8) (10_state.md R22). -/
def Instr.wellFormed (i : Instr) : Bool :=
  i.registerOperands.all fun r => decide (r.toNat < Config.registerCount)

end Sys2Proof
end

