-- ==== Sys2Proof/Decode.lean ====
section
/-! DEFINITION. The decoder, total on every fetch window, and after it the encoder (30_encoding.md). -/

namespace Sys2Proof

/-! ### The fields of the opcode byte (30_encoding.md R71) -/

/-- `n = IR[7:6]`: how many operand bytes follow the opcode. -/
def operandCount (ir : Byte) : Nat := (ir.toNat / 64) % 4

/-- `alu = IR[5]`: the opcode belongs to the ALU class. -/
def isAlu (ir : Byte) : Bool := ir.getLsbD 5

/-- `spc = IR[4]`: the handler sets pc, and the loop does not advance it. -/
def setsPc (ir : Byte) : Bool := ir.getLsbD 4

/-- An instruction's length in bytes, from its opcode byte alone (30_encoding.md R80). -/
def instrLength (ir : Byte) : Nat := 1 + operandCount ir

/-! ### The opcode table (30_encoding.md R72) -/

abbrev opHLT  : Byte := 0b00000001
abbrev opLDI  : Byte := 0b10000010
abbrev opPRN  : Byte := 0b01000111
abbrev opADD  : Byte := 0b10100000
abbrev opMUL  : Byte := 0b10100010
abbrev opPUSH : Byte := 0b01000101
abbrev opPOP  : Byte := 0b01000110
abbrev opRET  : Byte := 0b00010001
abbrev opCALL : Byte := 0b01010000
abbrev opCMP  : Byte := 0b10100111
abbrev opJMP  : Byte := 0b01010100
abbrev opJEQ  : Byte := 0b01010101
abbrev opJNE  : Byte := 0b01010110

/-! ### Decoding -/

/-- The ALU table, keyed by the full opcode; the operand bytes are register indices (40_execution_loop.md R104). -/
def decodeAlu (w : Window) : Except DecodeError Instr :=
  if w.ir = opADD then .ok (.add w.a w.b)
  else if w.ir = opMUL then .ok (.mul w.a w.b)
  else if w.ir = opCMP then .ok (.cmp w.a w.b)
  else .error .unsupportedALUOperation

/-- The non-ALU dispatch table, keyed by the full opcode (40_execution_loop.md R105). -/
def decodeNonAlu (w : Window) : Except DecodeError Instr :=
  if w.ir = opHLT then .ok .hlt
  else if w.ir = opRET then .ok .ret
  else if w.ir = opPUSH then .ok (.push w.a)
  else if w.ir = opPOP then .ok (.pop w.a)
  else if w.ir = opPRN then .ok (.prn w.a)
  else if w.ir = opCALL then .ok (.call w.a)
  else if w.ir = opJMP then .ok (.jmp w.a)
  else if w.ir = opJEQ then .ok (.jeq w.a)
  else if w.ir = opJNE then .ok (.jne w.a)
  else if w.ir = opLDI then .ok (.ldi w.a w.b)
  else .error .invalidInstruction

/-- Decode and dispatch: the ALU class is tested first, so an opcode with bit 5 set never reaches the dispatch table
(40_execution_loop.md R103 to R105). Bytes beyond the instruction's length are not looked at (30_encoding.md R75). -/
def decode (w : Window) : Except DecodeError Instr :=
  if isAlu w.ir then decodeAlu w else decodeNonAlu w

/-- The window that holds the given bytes from its opcode on. A byte that is not given is 0, and bytes after the third
are not in the window. -/
def windowOf (bytes : List Byte) : Window :=
  { ir := bytes.getD 0 0, a := bytes.getD 1 0, b := bytes.getD 2 0 }

/-- Byte `k` of an instruction whose bits are `w`, numbered as spec/opcode_table.json numbers them: byte 0, the opcode,
is the least significant, and the bits above `nbits` are 0. -/
def tableByte (nbits w k : Nat) : Byte := BitVec.ofNat 8 (w % 2 ^ nbits / 256 ^ k)

/-- What the decoder reads from an instruction whose bits are `w`, of which the table gives the row `nbits`. -/
def decodeTableWord (nbits w : Nat) : Option Instr :=
  match decode { ir := tableByte nbits w 0, a := tableByte nbits w 1, b := tableByte nbits w 2 } with
  | .ok i => some i
  | .error _ => none

/-! ### Encoding -/

/-- An instruction's bytes, the opcode first, in ascending address order (30_encoding.md R70, R73). -/
def encode : Instr → List Byte
  | .hlt => [opHLT]
  | .ldi a imm => [opLDI, a, imm]
  | .prn a => [opPRN, a]
  | .add a b => [opADD, a, b]
  | .mul a b => [opMUL, a, b]
  | .push a => [opPUSH, a]
  | .pop a => [opPOP, a]
  | .ret => [opRET]
  | .call a => [opCALL, a]
  | .cmp a b => [opCMP, a, b]
  | .jmp a => [opJMP, a]
  | .jeq a => [opJEQ, a]
  | .jne a => [opJNE, a]

/-- The opcode byte of an instruction (30_encoding.md R72). -/
def opcodeOf : Instr → Byte
  | .hlt => opHLT
  | .ldi .. => opLDI
  | .prn _ => opPRN
  | .add .. => opADD
  | .mul .. => opMUL
  | .push _ => opPUSH
  | .pop _ => opPOP
  | .ret => opRET
  | .call _ => opCALL
  | .cmp .. => opCMP
  | .jmp _ => opJMP
  | .jeq _ => opJEQ
  | .jne _ => opJNE

end Sys2Proof
end

