-- ==== Sys2Proof/Machine/State.lean ====
section
/-! DEFINITION. The CORE's whole state as plain data, and its value after reset (10_state.md; 70_reset_and_hazards.md R230). -/

namespace Sys2Proof.Machine

/-- The five fault kinds the CORE raises (60_exceptions.md R200). They are the CORE's own faults, taken as its terminal
status; the model's outcome type `Fault` below is another thing. -/
inductive FaultKind where
  | addressOutOfRange
  | invalidRegister
  | invalidInstruction
  | unsupportedALUOperation
  | timeout
deriving DecidableEq, Repr

/-- The run state: one live state and two terminal ones (10_state.md R30). The register's bits, STATE and CAUSE, are
`Status.stateCode` and `Status.causeCode`; that CAUSE is nonzero exactly when STATE is Faulted holds by this form
(log 3). -/
inductive Status where
  | running
  | halted
  | faulted (kind : FaultKind)
deriving DecidableEq, Repr

/-- The fault record (10_state.md R31). A field that a kind does not write is 0. -/
structure FaultRecord where
  /-- pc of the cycle that faulted -/
  fpc    : PcWord
  /-- the opcode byte fetched in that cycle -/
  fopc   : Byte
  /-- the out-of-range address -/
  faddr  : PcWord
  /-- the invalid register operand byte -/
  freg   : Byte
  /-- the value of count at the fault -/
  fcount : Nat
deriving DecidableEq, Repr

/-- The fault record with every field 0: its value at reset (10_state.md R31). -/
def FaultRecord.zero : FaultRecord := { fpc := 0, fopc := 0, faddr := 0, freg := 0, fcount := 0 }

/-- A raise with what it records besides the pc (00_scope.md R10 `raise K(info)`; 60_exceptions.md R200). -/
inductive Raise where
  | addressOutOfRange (address : Nat)
  | invalidRegister (opcode operand : Byte)
  | invalidInstruction (opcode : Byte)
  | unsupportedALUOperation (opcode : Byte)
  | timeout
deriving DecidableEq, Repr

/-- The state of the CORE between two cycles (10_state.md). -/
structure State where
  /-- Memory, 256 cells, as the canonical list of the cells that do not hold 0 (20_memory.md R50) -/
  mem       : List Host.Cell
  /-- the Register File (10_state.md R20) -/
  x         : Vector Byte Config.registerCount
  /-- the program counter (10_state.md R25) -/
  pc        : PcWord
  /-- the Flags register: bit 0 EQ, bit 1 GT, bit 2 LT (10_state.md R27) -/
  flags     : Byte
  /-- the run state, with the cause of a fault (10_state.md R30) -/
  status    : Status
  /-- the fault record (10_state.md R31) -/
  fault     : FaultRecord
  /-- completed instructions since reset (10_state.md R32) -/
  count     : Nat
  /-- the output stream, oldest byte first (10_state.md R33) -/
  out       : List Byte
  /-- STEP_LIMIT, which the host sends with Run (00_scope.md R7, 60_exceptions.md R219). DESIGN CHOICE: a field of
  State, because the step takes no other argument (log 1). No instruction reads or writes it. -/
  stepLimit : Option Nat
deriving DecidableEq, Repr

/-- The model's own stops. No step of the CORE ends in one: every fault of the CORE is the terminal status it enters. -/
inductive Fault where
  /-- Raised by `launch` alone, for an image of more than 256 bytes: it is no launch, and the CORE never starts
  (60_exceptions.md R218, 92_eei_decisions.md D12). Safe: nothing runs. -/
  | imageTooLong
  /-- Raised by `launchFile` alone, the Program Loader's failure ProgramNotFound: the path does not resolve, and the
  CORE never starts (60_exceptions.md R202). Safe: nothing runs. -/
  | programNotFound
  /-- Raised by `launchFile` alone, the Program Loader's failure ProgramParseError: a line's content is not a binary
  literal of one byte, and the CORE never starts (60_exceptions.md R202; log 10). Safe: nothing runs. -/
  | programParseError
deriving DecidableEq, Repr

/-- The model's refusals. -/
inductive Refusal where
  /-- Answered by an arm of `exec` that gives its instruction no meaning. No arm does. Safe: nothing runs. -/
  | notModelled (mnemonic : String)
deriving DecidableEq, Repr

/-- The state right after reset (70_reset_and_hazards.md R230). The values of flags, status, fault and count are the
spec's decisions D1, D8 and D16 (log 7); stepLimit, which the spec leaves open, is none: DESIGN CHOICE (log 1). -/
def State.reset : State :=
  { mem := []
    x := #v[0, 0, 0, 0, 0, 0, 0, Config.spReset]
    pc := 0
    flags := 0
    status := .running
    fault := FaultRecord.zero
    count := 0
    out := []
    stepLimit := none }

end Sys2Proof.Machine
end

