-- ==== Sys2Proof/Machine/Ops.lean ====
section
/-! DEFINITION. The shared operations: memory, registers, the explicit wrap, taking a fault, and the end of a cycle. -/

namespace Sys2Proof.Machine

/-! ### Arithmetic into a register -/

/-- An exact natural number reduced into a byte: the explicit wrap modulo 256 (00_scope.md R9). -/
def wrapByte (n : Nat) : Byte := BitVec.ofNat 8 (n % 256)

/-! ### Memory -/

/-- The byte at an address; an unlisted address holds the reset byte 0 (20_memory.md R50). -/
def Memory.read : List Host.Cell → Nat → Byte
  | [], _ => Config.memoryResetByte
  | (k, v) :: m, a =>
    if a < k then Config.memoryResetByte
    else if a = k then v
    else Memory.read m a

/-- Store a byte. The cells stay sorted by address, and a cell that holds the reset byte is not listed, so that equal
memories are equal lists. -/
def Memory.write : List Host.Cell → Nat → Byte → List Host.Cell
  | [], a, v => if v = Config.memoryResetByte then [] else [(a, v)]
  | (k, w) :: m, a, v =>
    if a < k then (if v = Config.memoryResetByte then (k, w) :: m else (a, v) :: (k, w) :: m)
    else if a = k then (if v = Config.memoryResetByte then m else (a, v) :: m)
    else (k, w) :: Memory.write m a v

/-- The canonical form from address `lo` on: addresses rise strictly, each is in [0,256), none holds the reset byte. -/
def Memory.wfFrom : Nat → List Host.Cell → Bool
  | _, [] => true
  | lo, (k, v) :: m =>
    decide (lo ≤ k) && decide (k < Config.memorySize) && decide (v ≠ Config.memoryResetByte) && Memory.wfFrom (k + 1) m

/-- The canonical form of Memory. -/
def Memory.wf (m : List Host.Cell) : Bool := Memory.wfFrom 0 m

/-- Store bytes at ascending addresses from `base` on, leaving out any that would lie past the last cell. -/
def Memory.load (m : List Host.Cell) (base : Nat) : List Byte → List Host.Cell
  | [] => m
  | v :: vs => Memory.load (if base < Config.memorySize then Memory.write m base v else m) (base + 1) vs

/-- The byte a state's Memory holds at an address. -/
def State.cell (s : State) (a : Nat) : Byte := Memory.read s.mem a

/-- The whole of Memory replaced. -/
def State.setMem (s : State) (m : List Host.Cell) : State := { s with mem := m }

/-- `MemRead(a, 1)`: the bounds-checked read (20_memory.md R51). -/
def memRead (s : State) (a : Nat) : Except Raise Byte :=
  if a < Config.memorySize then .ok (s.cell a) else .error (.addressOutOfRange a)

/-- `MemWrite(a, 1, v)`: the bounds-checked write (20_memory.md R51). -/
def memWrite (s : State) (a : Nat) (v : Byte) : Except Raise State :=
  if a < Config.memorySize then .ok (s.setMem (Memory.write s.mem a v)) else .error (.addressOutOfRange a)

/-! ### Registers, flags, status, output -/

/-- `x[i]`, read (00_scope.md R10). -/
def State.reg (s : State) (r : Fin Config.registerCount) : Byte := s.x[r]

/-- `x[i] <- v` (00_scope.md R10). No register is hardwired (10_state.md R20). -/
def State.setReg (s : State) (r : Fin Config.registerCount) (v : Byte) : State := { s with x := s.x.set r v }

/-- `sp`, another name for x[7] (10_state.md R23). -/
def State.sp (s : State) : Byte := s.reg Config.spIndex

/-- `sp <- v` (10_state.md R23). -/
def State.setSp (s : State) (v : Byte) : State := s.setReg Config.spIndex v

/-- `pc <- t` (00_scope.md R10). -/
def State.setPc (s : State) (t : PcWord) : State := { s with pc := t }

/-- `flags <- v` (00_scope.md R10). -/
def State.setFlags (s : State) (v : Byte) : State := { s with flags := v }

/-- `halt()` (00_scope.md R10, 44_halt_load_output.md R180). -/
def State.halt (s : State) : State := { s with status := .halted }

/-- `emit(v)`: append to the output stream (60_exceptions.md R215). -/
def State.emit (s : State) (v : Byte) : State := { s with out := s.out ++ [v] }

/-- One more instruction has completed (40_execution_loop.md R108). -/
def State.tick (s : State) : State := { s with count := s.count + 1 }

/-! ### The program counter and the stack pointer -/

/-- `p + k`, in 9 bits, never reduced modulo 256 (10_state.md R25, R26). -/
def pcPlus (p : PcWord) (k : Nat) : PcWord := BitVec.ofNat 9 (p.toNat + k)

/-- A control-transfer target: the 8-bit value itself, in [0,256) (43_control_flow.md R163). -/
def pcOfByte (v : Byte) : PcWord := BitVec.ofNat 9 v.toNat

/-- The byte CALL pushes, p + 2. It is at most 255 wherever a CALL executes (42_stack_and_calls.md R142); DESIGN
CHOICE outside that range, where no step gets: its low 8 bits (log 5). -/
def returnByte (p : PcWord) : Byte := wrapByte (p.toNat + 2)

/-- `(v - 1) mod 256`, which is (v + 255) mod 256 (20_memory.md R58). -/
def decByte (v : Byte) : Byte := wrapByte (v.toNat + 255)

/-- `(v + 1) mod 256` (20_memory.md R58). -/
def incByte (v : Byte) : Byte := wrapByte (v.toNat + 1)

/-- `sp <- (sp - 1) mod 256`, strictly before a push writes (42_stack_and_calls.md R144). -/
def State.decSp (s : State) : State := s.setSp (decByte s.sp)

/-- `sp <- (sp + 1) mod 256`, strictly after a pop reads (42_stack_and_calls.md R144). -/
def State.incSp (s : State) : State := s.setSp (incByte s.sp)

/-- The address a push stores to: sp after the decrement (20_memory.md R52). -/
def pushAddress (s : State) : Nat := s.decSp.sp.toNat

/-! ### Taking a fault -/

/-- The kind that a raise enters the status with (60_exceptions.md R200). -/
def Raise.kind : Raise → FaultKind
  | .addressOutOfRange _ => .addressOutOfRange
  | .invalidRegister _ _ => .invalidRegister
  | .invalidInstruction _ => .invalidInstruction
  | .unsupportedALUOperation _ => .unsupportedALUOperation
  | .timeout => .timeout

/-- What each kind records; the other fields are 0 (10_state.md R31, 60_exceptions.md R200). -/
def Raise.record (k : Raise) (pc : PcWord) (count : Nat) : FaultRecord :=
  match k with
  | .addressOutOfRange address => { FaultRecord.zero with fpc := pc, faddr := BitVec.ofNat 9 address }
  | .invalidRegister opcode operand => { FaultRecord.zero with fpc := pc, fopc := opcode, freg := operand }
  | .invalidInstruction opcode => { FaultRecord.zero with fpc := pc, fopc := opcode }
  | .unsupportedALUOperation opcode => { FaultRecord.zero with fpc := pc, fopc := opcode }
  | .timeout => { FaultRecord.zero with fpc := pc, fcount := count }

/-- Fault entry: status and the fault record are written, and every other element keeps its value from the start of
the cycle, the pc too (60_exceptions.md R210). There is no return from a fault: only a reset, `State.reset`, leaves it
(60_exceptions.md R211). -/
def raiseFault (k : Raise) (s : State) : State :=
  { s with status := .faulted k.kind, fault := k.record s.pc s.count }

/-! ### The end of a cycle -/

/-- After the handler of the opcode `ir` fetched at `p`: the loop advances pc by the opcode's length unless sets_pc is
1, in which case the handler alone controls pc; then count goes up by 1 (40_execution_loop.md R107, R108, R110). -/
def completeCycle (ir : Byte) (p : PcWord) (s : State) : State :=
  (if setsPc ir then s else s.setPc (pcPlus p (instrLength ir))).tick

/-- One instruction after dispatch, from the result of its operand check and handler: it completes, or what it raised
is taken at the state the cycle started in, so that no partial change remains (00_scope.md R10, R109). -/
def finishCycle (ir : Byte) (s : State) (result : Except Raise State) : Host.Outcome State Fault Refusal :=
  match result with
  | .ok t => .next (completeCycle ir s.pc t)
  | .error k => .next (raiseFault k s)

end Sys2Proof.Machine
end

