-- ==== Sys2Proof/Machine/Operands.lean ====
section
/-! DEFINITION. The operand forms (30_encoding.md R73): each checks the register operands its format names, in order,
and only then runs the handler (40_execution_loop.md R106). -/

namespace Sys2Proof.Machine

/-- A register operand is the whole byte, not masked: 0 to 7 select a register, and 8 to 255 raise InvalidRegister
(30_encoding.md R74, 10_state.md R22). -/
def checkRegister (ir r : Byte) : Except Raise (Fin Config.registerCount) :=
  if h : r.toNat < Config.registerCount then .ok ⟨r.toNat, h⟩ else .error (.invalidRegister ir r)

/-- Format F0: no operand. -/
def runF0 (ir : Byte) (handler : State → Except Raise State) (s : State) : Host.Outcome State Fault Refusal :=
  finishCycle ir s (handler s)

/-- Format F1R: one register operand `a`. -/
def runF1R (ir a : Byte) (handler : Fin Config.registerCount → State → Except Raise State) (s : State) :
    Host.Outcome State Fault Refusal :=
  finishCycle ir s (do
    let ra ← checkRegister ir a
    handler ra s)

/-- Format F2RI: a register operand `a` and an immediate, which is never checked (30_encoding.md R74). -/
def runF2RI (ir a imm : Byte) (handler : Fin Config.registerCount → Byte → State → Except Raise State) (s : State) :
    Host.Outcome State Fault Refusal :=
  finishCycle ir s (do
    let ra ← checkRegister ir a
    handler ra imm s)

/-- Format F2RR: two register operands, `a` checked first and then `b`. -/
def runF2RR (ir a b : Byte)
    (handler : Fin Config.registerCount → Fin Config.registerCount → State → Except Raise State) (s : State) :
    Host.Outcome State Fault Refusal :=
  finishCycle ir s (do
    let ra ← checkRegister ir a
    let rb ← checkRegister ir b
    handler ra rb s)

end Sys2Proof.Machine
end

