-- ==== Sys2Proof/Machine/Alu.lean ====
section
/-! DEFINITION. The ALU instructions ADD, MUL and CMP (41_alu.md). A `handle` definition is the spec's handler; an
`exec` definition is the instruction: operand check, handler, end of cycle. -/

namespace Sys2Proof.Machine

/-- `x[a] <- (x[a] + x[b]) mod 256` (41_alu.md R121). -/
def handleAdd (ra rb : Fin Config.registerCount) (s : State) : Except Raise State :=
  .ok (s.setReg ra (wrapByte ((s.reg ra).toNat + (s.reg rb).toNat)))

/-- `x[a] <- (x[a] * x[b]) mod 256`: the low 8 bits of the exact product (41_alu.md R122). -/
def handleMul (ra rb : Fin Config.registerCount) (s : State) : Except Raise State :=
  .ok (s.setReg ra (wrapByte ((s.reg ra).toNat * (s.reg rb).toNat)))

/-- `flags <- ` the outcome of comparing x[a] with x[b]; neither register is written (41_alu.md R123). -/
def handleCmp (ra rb : Fin Config.registerCount) (s : State) : Except Raise State :=
  .ok (s.setFlags (compareFlags (s.reg ra) (s.reg rb)))

/-- ADD a,b (41_alu.md R121). -/
def execAdd (a b : Byte) (s : State) : Host.Outcome State Fault Refusal := runF2RR opADD a b handleAdd s

/-- MUL a,b (41_alu.md R122). -/
def execMul (a b : Byte) (s : State) : Host.Outcome State Fault Refusal := runF2RR opMUL a b handleMul s

/-- CMP a,b (41_alu.md R123). -/
def execCmp (a b : Byte) (s : State) : Host.Outcome State Fault Refusal := runF2RR opCMP a b handleCmp s

end Sys2Proof.Machine
end

