-- ==== Sys2Proof/Machine/Control.lean ====
section
/-! DEFINITION. The control-flow instructions JMP, JEQ and JNE (43_control_flow.md). Their opcodes have sets_pc = 1, so
each handler sets pc on every path; none of them changes status (40_execution_loop.md R107, R111). -/

namespace Sys2Proof.Machine

/-- `pc <- x[a]` (43_control_flow.md R160). -/
def handleJmp (ra : Fin Config.registerCount) (s : State) : Except Raise State :=
  .ok (s.setPc (pcOfByte (s.reg ra)))

/-- `if flags[0] = 1: pc <- x[a] else: pc <- p + 2` (43_control_flow.md R161). -/
def handleJeq (ra : Fin Config.registerCount) (s : State) : Except Raise State :=
  .ok (s.setPc (if flagEq s.flags then pcOfByte (s.reg ra) else pcPlus s.pc 2))

/-- `if flags[0] = 0: pc <- x[a] else: pc <- p + 2` (43_control_flow.md R162). -/
def handleJne (ra : Fin Config.registerCount) (s : State) : Except Raise State :=
  .ok (s.setPc (if flagEq s.flags then pcPlus s.pc 2 else pcOfByte (s.reg ra)))

/-- JMP a (43_control_flow.md R160). -/
def execJmp (a : Byte) (s : State) : Host.Outcome State Fault Refusal := runF1R opJMP a handleJmp s

/-- JEQ a (43_control_flow.md R161). -/
def execJeq (a : Byte) (s : State) : Host.Outcome State Fault Refusal := runF1R opJEQ a handleJeq s

/-- JNE a (43_control_flow.md R162). -/
def execJne (a : Byte) (s : State) : Host.Outcome State Fault Refusal := runF1R opJNE a handleJne s

end Sys2Proof.Machine
end

