-- ==== Sys2Proof/Machine/HaltLoadOutput.lean ====
section
/-! DEFINITION. Halt, immediate load and output: HLT, LDI and PRN (44_halt_load_output.md). -/

namespace Sys2Proof.Machine

/-- `status <- Halted`: the loop still advances pc and count afterwards (44_halt_load_output.md R180). -/
def handleHlt (s : State) : Except Raise State := .ok s.halt

/-- `x[a] <- imm` (44_halt_load_output.md R181). -/
def handleLdi (ra : Fin Config.registerCount) (imm : Byte) (s : State) : Except Raise State := .ok (s.setReg ra imm)

/-- `emit(x[a])` (44_halt_load_output.md R182). -/
def handlePrn (ra : Fin Config.registerCount) (s : State) : Except Raise State := .ok (s.emit (s.reg ra))

/-- HLT (44_halt_load_output.md R180). -/
def execHlt (s : State) : Host.Outcome State Fault Refusal := runF0 opHLT handleHlt s

/-- LDI a,imm (44_halt_load_output.md R181). -/
def execLdi (a imm : Byte) (s : State) : Host.Outcome State Fault Refusal := runF2RI opLDI a imm handleLdi s

/-- PRN a (44_halt_load_output.md R182). -/
def execPrn (a : Byte) (s : State) : Host.Outcome State Fault Refusal := runF1R opPRN a handlePrn s

end Sys2Proof.Machine
end

