-- ==== Sys2Proof/Machine/Stack.lean ====
section
/-! DEFINITION. The stack and subroutine instructions PUSH, POP, CALL and RET (42_stack_and_calls.md). The statements
of a handler run in the order written, each seeing the writes before it (00_scope.md R11). -/

namespace Sys2Proof.Machine

/-- `sp <- (sp - 1) mod 256; MemWrite(sp, 1, x[a])`: PUSH R7 stores the decremented sp (42_stack_and_calls.md R140). -/
def handlePush (ra : Fin Config.registerCount) (s : State) : Except Raise State :=
  memWrite s.decSp s.decSp.sp.toNat (s.decSp.reg ra)

/-- `x[a] <- MemRead(sp, 1); sp <- (sp + 1) mod 256`: POP R7 increments the popped value (42_stack_and_calls.md R141). -/
def handlePop (ra : Fin Config.registerCount) (s : State) : Except Raise State := do
  let v ← memRead s s.sp.toNat
  .ok (s.setReg ra v).incSp

/-- `sp <- (sp - 1) mod 256; MemWrite(sp, 1, p + 2); pc <- x[a]`: CALL R7 jumps to the decremented sp
(42_stack_and_calls.md R142). -/
def handleCall (ra : Fin Config.registerCount) (s : State) : Except Raise State := do
  let t ← memWrite s.decSp s.decSp.sp.toNat (returnByte s.pc)
  .ok (t.setPc (pcOfByte (t.reg ra)))

/-- `pc <- MemRead(sp, 1); sp <- (sp + 1) mod 256` (42_stack_and_calls.md R143). -/
def handleRet (s : State) : Except Raise State := do
  let v ← memRead s s.sp.toNat
  .ok (s.setPc (pcOfByte v)).incSp

/-- PUSH a (42_stack_and_calls.md R140). -/
def execPush (a : Byte) (s : State) : Host.Outcome State Fault Refusal := runF1R opPUSH a handlePush s

/-- POP a (42_stack_and_calls.md R141). -/
def execPop (a : Byte) (s : State) : Host.Outcome State Fault Refusal := runF1R opPOP a handlePop s

/-- CALL a (42_stack_and_calls.md R142). -/
def execCall (a : Byte) (s : State) : Host.Outcome State Fault Refusal := runF1R opCALL a handleCall s

/-- RET (42_stack_and_calls.md R143). -/
def execRet (s : State) : Host.Outcome State Fault Refusal := runF0 opRET handleRet s

end Sys2Proof.Machine
end

