-- ==== Sys2Proof/Machine/Loop.lean ====
section
/-! DEFINITION. The front of a cycle: the ceiling check, the fetch, decode and dispatch (40_execution_loop.md R101 to R105). -/

namespace Sys2Proof.Machine

/-- What a cycle comes to before an instruction executes. -/
inductive CycleStart where
  /-- the CORE is Halted or Faulted: no cycle runs (40_execution_loop.md R100) -/
  | stopped
  /-- the ceiling, the fetch or the decoder raised a fault -/
  | raised (k : Raise)
  /-- the instruction to execute -/
  | run (i : Instr)
deriving DecidableEq, Repr

/-- The ceiling check, before anything is fetched (40_execution_loop.md R101). -/
def checkCeiling (s : State) : Except Raise Unit :=
  match s.stepLimit with
  | none => .ok ()
  | some limit => if limit ≤ s.count then .error .timeout else .ok ()

/-- The three bounds-checked reads, in the order pc, pc+1, pc+2, whatever the opcode's length (40_execution_loop.md
R102). -/
def fetchWindow (s : State) : Except Raise Window := do
  let ir ← memRead s s.pc.toNat
  let a ← memRead s (s.pc.toNat + 1)
  let b ← memRead s (s.pc.toNat + 2)
  .ok { ir := ir, a := a, b := b }

/-- Decode and dispatch; an illegal opcode raises its class's fault (40_execution_loop.md R103 to R105). -/
def decodeWindow (w : Window) : Except Raise Instr :=
  match decode w with
  | .ok i => .ok i
  | .error .unsupportedALUOperation => .error (.unsupportedALUOperation w.ir)
  | .error .invalidInstruction => .error (.invalidInstruction w.ir)

/-- A running cycle up to dispatch: the first check that fails decides (60_exceptions.md R208). -/
def fetchAndDecode (s : State) : Except Raise Instr := do
  checkCeiling s
  let w ← fetchWindow s
  decodeWindow w

/-- The front of a cycle. It starts only if status = Running (40_execution_loop.md R101). -/
def cycleStart (s : State) : CycleStart :=
  match s.status with
  | .running =>
    match fetchAndDecode s with
    | .ok i => .run i
    | .error k => .raised k
  | .halted => .stopped
  | .faulted _ => .stopped

end Sys2Proof.Machine
end

