-- ==== Sys2Proof/Machine/Step.lean ====
section
/-! DEFINITION. One step is one cycle, which runs exactly one instruction (40_execution_loop.md R109). -/

namespace Sys2Proof.Machine

/-- One cycle. A step of a CORE that is Halted or Faulted changes nothing (40_execution_loop.md R100,
92_eei_decisions.md D17; log 2). -/
def step (s : State) : Host.Outcome State Fault Refusal :=
  match cycleStart s with
  | .stopped => .next s
  | .raised k => .next (raiseFault k s)
  | .run i => exec i s

/-- The state with the three bytes of an instruction whose bits are `w` stored at pc, pc+1 and pc+2, where the next
cycle fetches; nothing else changes. From pc 254 on, where no instruction can be fetched, the bytes past the last cell
are left out (log 8). -/
def State.withFetchWord (s : State) (nbits w : Nat) : State :=
  { s with mem := Memory.load s.mem s.pc.toNat [tableByte nbits w 0, tableByte nbits w 1, tableByte nbits w 2] }

end Sys2Proof.Machine
end

