-- ==== Sys2Proof/Machine/HostView.lean ====
section
/-! DEFINITION. What the host does before a run and reads of one (60_exceptions.md R215 to R223, 40_execution_loop.md
R112). Nothing here is read by a step. -/

namespace Sys2Proof.Machine

/-! ### Reset, Load and Run -/

/-- The launch state of a run: reset, then the image at addresses 0 to N-1 and 0 above it, and STEP_LIMIT as the host
sends it (70_reset_and_hazards.md R231, 60_exceptions.md R218, R219). An image of more than 256 bytes is no launch
(92_eei_decisions.md D12). -/
def launch (limit : Option Nat) (image : List Byte) : Host.Outcome State Fault Refusal :=
  if image.length ≤ Config.memorySize then
    .next { State.reset with mem := Memory.load State.reset.mem 0 image, stepLimit := limit }
  else .fault .imageTooLong

/-! ### The status register's bits -/

/-- CAUSE codes 1 to 5 (60_exceptions.md R200). -/
def FaultKind.code : FaultKind → BitVec 3
  | .addressOutOfRange => 1
  | .invalidRegister => 2
  | .invalidInstruction => 3
  | .unsupportedALUOperation => 4
  | .timeout => 5

/-- STATE, 2 bits (10_state.md R30). -/
def Status.stateCode : Status → BitVec 2
  | .running => 0
  | .halted => 1
  | .faulted _ => 2

/-- CAUSE, 3 bits: 0 unless Faulted (10_state.md R30). -/
def Status.causeCode : Status → BitVec 3
  | .running => 0
  | .halted => 0
  | .faulted k => k.code

/-! ### The end of a run -/

/-- What the host process reports of a run that ended (40_execution_loop.md R112, 60_exceptions.md R223). The numbers of
the process's exit statuses are not in the source. -/
inductive RunResult where
  | success
  | failure (kind : FaultKind)
deriving DecidableEq, Repr

/-- Success on Halted, a distinct failure per kind on Faulted, nothing while Running (60_exceptions.md R223). -/
def Status.result : Status → Option RunResult
  | .running => none
  | .halted => some .success
  | .faulted k => some (.failure k)

/-! ### The output stream as text -/

/-- A byte's unsigned decimal digits as ASCII codes, with no leading zero and no sign (92_eei_decisions.md D11). -/
def decimalDigits (v : Byte) : List Byte :=
  let digit (n : Nat) : Byte := BitVec.ofNat 8 (48 + n % 10)
  if v.toNat < 10 then [digit v.toNat]
  else if v.toNat < 100 then [digit (v.toNat / 10), digit v.toNat]
  else [digit (v.toNat / 100), digit (v.toNat / 10), digit v.toNat]

/-- The text the host writes for an output stream: one line per byte, each ended by LF (60_exceptions.md R215,
92_eei_decisions.md D11). -/
def renderOutput (out : List Byte) : List Byte := out.flatMap fun v => decimalDigits v ++ [0x0A]

/-! ### The diagnostic trace -/

/-- A byte as two uppercase hexadecimal digits (60_exceptions.md R220). -/
def hexByte (v : Byte) : String :=
  let digit (n : Nat) : Char := "0123456789ABCDEF".toList.getD n '0'
  String.ofList [digit (v.toNat / 16), digit (v.toNat % 16)]

/-- The trace line of a cycle, `PC | byte0 byte1 byte2 | reg0 … reg7` (60_exceptions.md R220). There is none where the
fetch window is out of range, since the source gives no line for it (91_not_in_source.md N8). -/
def traceLine (s : State) : Option String :=
  match fetchWindow s with
  | .ok w =>
    some (hexByte (BitVec.ofNat 8 s.pc.toNat) ++ " | " ++ hexByte w.ir ++ " " ++ hexByte w.a ++ " " ++ hexByte w.b
      ++ " | " ++ " ".intercalate (s.x.toList.map hexByte))
  | .error _ => none

/-! ### The assembly spelling -/

/-- `R<index>` (30_encoding.md R90). -/
def registerName (r : Byte) : String := "R" ++ toString r.toNat

/-- An instruction in the spelling of the spec's examples: the mnemonic, a space, the operands separated by commas,
registers as `R<index>`, the immediate in decimal. It is notation only, and no input of the CORE (00_scope.md R12). An
ill-formed instruction has no spelling: a register byte of 8 or more can be written only as raw bytes (30_encoding.md
R90). -/
def assemblySpelling (i : Instr) : Option String :=
  if i.wellFormed then
    some (match i with
      | .hlt => "HLT"
      | .ret => "RET"
      | .prn a => "PRN " ++ registerName a
      | .push a => "PUSH " ++ registerName a
      | .pop a => "POP " ++ registerName a
      | .call a => "CALL " ++ registerName a
      | .jmp a => "JMP " ++ registerName a
      | .jeq a => "JEQ " ++ registerName a
      | .jne a => "JNE " ++ registerName a
      | .ldi a imm => "LDI " ++ registerName a ++ "," ++ toString imm.toNat
      | .add a b => "ADD " ++ registerName a ++ "," ++ registerName b
      | .mul a b => "MUL " ++ registerName a ++ "," ++ registerName b
      | .cmp a b => "CMP " ++ registerName a ++ "," ++ registerName b)
  else none

end Sys2Proof.Machine
end

