-- ==== Sys2Proof/Machine/Loader.lean ====
section
/-! DEFINITION. The Program Loader's reading of a program file (30_encoding.md R91). The loader is the host's, outside the
CORE (00_scope.md R5): nothing here is read by a step. -/

namespace Sys2Proof.Machine

/-- A text's lines: the pieces between line feeds. -/
def splitLines : List Char → List (List Char)
  | [] => [[]]
  | c :: cs =>
    if c = '\n' then [] :: splitLines cs
    else
      match splitLines cs with
      | [] => [[c]]
      | l :: ls => (c :: l) :: ls

/-- The portion of a line before the first `#`, trimmed of whitespace on both sides (30_encoding.md R91). -/
def lineContent (line : List Char) : List Char :=
  let before := line.takeWhile fun c => c ≠ '#'
  ((before.dropWhile Char.isWhitespace).reverse.dropWhile Char.isWhitespace).reverse

/-- The value of a binary literal read most significant digit first (00_scope.md R8), onto the digits already read. -/
def binaryValue : Nat → List Char → Option Nat
  | n, [] => some n
  | n, '0' :: ds => binaryValue (2 * n) ds
  | n, '1' :: ds => binaryValue (2 * n + 1) ds
  | _, _ :: _ => none

/-- A binary literal parsed into one byte. DESIGN CHOICE: more than 8 digits are a parse failure, since the source does
not say what they come to and the loader may not truncate or wrap (91_not_in_source.md N14; log 10). -/
def parseByte (content : List Char) : Option Byte :=
  if content.length ≤ 8 then (binaryValue 0 content).map (BitVec.ofNat 8) else none

/-- The bytes of a file's lines in file order; an empty or comment-only line gives none (30_encoding.md R91). -/
def parseLines : List (List Char) → Option (List Byte)
  | [] => some []
  | line :: rest =>
    if lineContent line = [] then parseLines rest
    else
      match parseByte (lineContent line), parseLines rest with
      | some v, some vs => some (v :: vs)
      | _, _ => none

/-- The host's start of a run from a program file's text, `none` where the path does not resolve: the loader's failures
prevent the launch (60_exceptions.md R202, R218). -/
def launchFile (limit : Option Nat) (file : Option (List Char)) : Host.Outcome State Fault Refusal :=
  match file with
  | none => .fault .programNotFound
  | some text =>
    match parseLines (splitLines text) with
    | none => .fault .programParseError
    | some image => launch limit image

/-- A byte as 8 binary digits, most significant first (00_scope.md R8). -/
def binaryDigits (v : Byte) : List Char :=
  [v.getLsbD 7, v.getLsbD 6, v.getLsbD 5, v.getLsbD 4, v.getLsbD 3, v.getLsbD 2, v.getLsbD 1, v.getLsbD 0].map
    fun b => if b then '1' else '0'

/-- An image as a program file, one byte a line. -/
def programText (image : List Byte) : List Char := image.flatMap fun v => binaryDigits v ++ ['\n']

end Sys2Proof.Machine
end

