-- ==== Sys2Proof/Safety.lean ====
section
/-! DEFINITION. The terms in which claims about the CORE are stated: what an instruction leaves alone, which fault a cycle
comes to, and the invariant of every state that a run reaches. -/

namespace Sys2Proof.Machine

/-! ### Frames -/

/-- Every register outside `written` is unchanged. -/
def KeepsRegs (s t : State) (written : List (Fin Config.registerCount)) : Prop :=
  ∀ r, r ∉ written → t.reg r = s.reg r

/-- Every byte of Memory outside the addresses `stored` reads as before. -/
def KeepsMem (s t : State) (stored : List Nat) : Prop :=
  ∀ a : Nat, a ∉ stored → t.cell a = s.cell a

/-- status, the fault record and STEP_LIMIT are unchanged. -/
def KeepsControl (s t : State) : Prop :=
  t.status = s.status ∧ t.fault = s.fault ∧ t.stepLimit = s.stepLimit

/-- pc moves on by `n` bytes, wherever an instruction can execute (10_state.md R25: at pc 0 to 253). -/
def AdvancesPc (s t : State) (n : Nat) : Prop :=
  s.pc.toNat ≤ 253 → t.pc.toNat = s.pc.toNat + n

/-- The instruction ended with a fault of this kind, and every element other than status and the fault record keeps its
value (60_exceptions.md R210). -/
def FaultsKeepingState (kind : FaultKind) (s t : State) : Prop :=
  t.status = .faulted kind ∧ t.mem = s.mem ∧ t.x = s.x ∧ t.pc = s.pc ∧ t.flags = s.flags ∧ t.count = s.count ∧
    t.out = s.out ∧ t.stepLimit = s.stepLimit

/-- The status is not Faulted. -/
def NotFaulted (s : State) : Prop := ∀ kind, s.status ≠ .faulted kind

/-! ### The front of a cycle, in the terms of the spec -/

/-- The ceiling does not stop the next cycle (40_execution_loop.md R101). -/
def BelowCeiling (s : State) : Prop := ∀ limit, s.stepLimit = some limit → s.count < limit

/-- The three bytes that the next cycle latches when its fetch is in range (40_execution_loop.md R102). -/
def bytesAtPc (s : State) : Window :=
  { ir := s.cell s.pc.toNat, a := s.cell (s.pc.toNat + 1), b := s.cell (s.pc.toNat + 2) }

/-- The next cycle fetches these bytes: the CORE is Running, below its ceiling, and the whole window is in range. -/
def Fetches (s : State) : Prop := s.status = .running ∧ BelowCeiling s ∧ s.pc.toNat ≤ 253

/-- Which fault a running cycle reports, the first that applies in the spec's order of priority, if any
(60_exceptions.md R208). -/
def firstFault (s : State) : Option FaultKind :=
  if s.stepLimit.any (fun limit => decide (limit ≤ s.count)) then some .timeout
  else if 254 ≤ s.pc.toNat then some .addressOutOfRange
  else
    match decode (bytesAtPc s) with
    | .error .unsupportedALUOperation => some .unsupportedALUOperation
    | .error .invalidInstruction => some .invalidInstruction
    | .ok i => if i.wellFormed then none else some .invalidRegister

/-! ### Program files -/

/-- A line of a program file spells a byte, with 1 to 8 binary digits read most significant first, or spells none: before
its first `#` it holds whitespace, the digits or nothing, and whitespace again (30_encoding.md R91; log 10). -/
def LineSpells (line : List Char) (value : Option Byte) : Prop :=
  '\n' ∉ line ∧ ∃ before digits after comment : List Char,
    line = before ++ digits ++ after ++ comment ∧
    (∀ c ∈ before, c.isWhitespace = true) ∧ (∀ c ∈ after, c.isWhitespace = true) ∧
    (comment = [] ∨ comment.head? = some '#') ∧ (∀ c ∈ digits, c = '0' ∨ c = '1') ∧
    match value with
    | none => digits = []
    | some v => 1 ≤ digits.length ∧ digits.length ≤ 8 ∧
        v.toNat = digits.foldl (fun n c => 2 * n + if c = '1' then 1 else 0) 0

/-! ### The invariant -/

/-- An opcode byte of the ALU table (30_encoding.md R77). -/
def InAluTable (ir : Byte) : Prop := ir = 0xA0 ∨ ir = 0xA2 ∨ ir = 0xA7

/-- An opcode byte of the non-ALU dispatch table (30_encoding.md R77). -/
def InDispatchTable (ir : Byte) : Prop :=
  ir = 0x01 ∨ ir = 0x11 ∨ ir = 0x45 ∨ ir = 0x46 ∨ ir = 0x47 ∨ ir = 0x50 ∨ ir = 0x54 ∨ ir = 0x55 ∨ ir = 0x56 ∨ ir = 0x82

/-- flags is one of 0x00, 0x01, 0x02, 0x04: at most one of EQ, GT and LT, and bits 7 to 3 are 0 (10_state.md R29). -/
def FlagsLegal (s : State) : Prop := s.flags = 0x00 ∨ s.flags = 0x01 ∨ s.flags = 0x02 ∨ s.flags = 0x04

/-- The fault record agrees with status: all 0 unless Faulted, and else what the kind records, with every other field 0
(10_state.md R30, R31; 60_exceptions.md R200). -/
def FaultRecordLegal (s : State) : Prop :=
  match s.status with
  | .running => s.fault = FaultRecord.zero
  | .halted => s.fault = FaultRecord.zero
  | .faulted .addressOutOfRange =>
    254 ≤ s.pc.toNat ∧ s.fault = { FaultRecord.zero with fpc := s.pc, faddr := 256 }
  | .faulted .invalidRegister =>
    (InAluTable s.fault.fopc ∨ InDispatchTable s.fault.fopc) ∧ 8 ≤ s.fault.freg.toNat ∧
      s.fault = { FaultRecord.zero with fpc := s.pc, fopc := s.fault.fopc, freg := s.fault.freg }
  | .faulted .invalidInstruction =>
    isAlu s.fault.fopc = false ∧ ¬ InDispatchTable s.fault.fopc ∧
      s.fault = { FaultRecord.zero with fpc := s.pc, fopc := s.fault.fopc }
  | .faulted .unsupportedALUOperation =>
    isAlu s.fault.fopc = true ∧ ¬ InAluTable s.fault.fopc ∧
      s.fault = { FaultRecord.zero with fpc := s.pc, fopc := s.fault.fopc }
  | .faulted .timeout =>
    s.stepLimit = some s.count ∧ s.fault = { FaultRecord.zero with fpc := s.pc, fcount := s.count }

/-- No more instructions have completed than STEP_LIMIT allows (60_exceptions.md R207). -/
def CountWithinLimit (s : State) : Prop := ∀ limit, s.stepLimit = some limit → s.count ≤ limit

/-- What holds of every state a run reaches. -/
structure Inv (s : State) : Prop where
  /-- Memory keeps its canonical form, which has no cell outside [0,256) (20_memory.md R50) -/
  memory : Memory.wf s.mem = true
  /-- pc is 0 to 256 (10_state.md R25) -/
  pc : s.pc.toNat ≤ 256
  flags : FlagsLegal s
  record : FaultRecordLegal s
  count : CountWithinLimit s

end Sys2Proof.Machine
end

