-- ==== Sys2Proof/Certificates/Slice0/Obligations.lean ====
section
/-! DEFINITION. The statements about the CORE that are to be proved. -/

open Sys2Proof Sys2Proof.Machine

/-! ### Reset and launch -/

/-- R0 to R6 are 0x00 at reset, and R7 is 0xF4 (10_state.md R24). -/
def Obligations.RegistersAtReset : Prop :=
  ∀ r : Fin 8, State.reset.reg r = if r = 7 then 0xF4 else 0x00

/-- Everything but the registers at reset (70_reset_and_hazards.md R230). The values of flags, status, the fault record
and count are the spec's own decisions D1, D8 and D16. STEP_LIMIT is not in the statement: its value at reset is the
model's choice (log 1). -/
def Obligations.OtherStateAtReset : Prop :=
  (∀ a : Nat, State.reset.cell a = 0x00) ∧ State.reset.pc.toNat = 0 ∧ State.reset.flags = 0x00 ∧
    State.reset.status = .running ∧ State.reset.fault = { fpc := 0, fopc := 0, faddr := 0, freg := 0, fcount := 0 } ∧
    State.reset.count = 0 ∧ State.reset.out = []

/-- The invariant holds at reset. -/
def Obligations.ResetMeetsInvariant : Prop := Inv State.reset

/-- At launch the image stands at addresses 0 to N-1, every other byte is 0, everything else but STEP_LIMIT is as at
reset, and the invariant holds. An image of more than 256 bytes is no launch (60_exceptions.md R218; the spec's decision
D12; the model's answer `imageTooLong`, log 8). -/
def Obligations.LaunchLoadsImageAtZero : Prop :=
  ∀ (limit : Option Nat) (image : List Byte),
    (image.length ≤ 256 →
      ∃ t, launch limit image = .next t ∧ Inv t ∧ t.stepLimit = limit ∧
        (∀ a : Nat, t.cell a = image.getD a 0x00) ∧
        t = { State.reset with mem := t.mem, stepLimit := limit }) ∧
    (256 < image.length → launch limit image = .fault .imageTooLong)

/-- A program file launches the image its lines spell, in file order: a line spells a byte with 1 to 8 binary digits,
whitespace around them and a comment after them being no part of it, and a line that is empty, blank or only a comment
spells none; so does the text of an image written one byte a line, in 8 digits. Where the path does not resolve, or a
line holds anything but binary digits before its first `#`, the CORE never starts (30_encoding.md R91, 60_exceptions.md
R202). That lines end at a line feed, which characters are whitespace, and the answers `programNotFound` and
`programParseError` are the model's choices (log 10). -/
def Obligations.ProgramFileLaunchesItsImage : Prop :=
  (∀ (limit : Option Nat) (lines : List (List Char × Option Byte)), (∀ p ∈ lines, LineSpells p.1 p.2) →
    launchFile limit (some (['\n'].intercalate (lines.map Prod.fst))) = launch limit (lines.filterMap Prod.snd)) ∧
  (∀ (limit : Option Nat) (image : List Byte), launchFile limit (some (programText image)) = launch limit image) ∧
  (∀ limit : Option Nat, launchFile limit none = .fault .programNotFound) ∧
  (∀ (limit : Option Nat) (text line : List Char) (c : Char), line ∈ splitLines text → c ∈ lineContent line →
    c ≠ '0' → c ≠ '1' → launchFile limit (some text) = .fault .programParseError)

/-! ### Memory -/

/-- The bounds-checked primitives (20_memory.md R51): inside [0,256) a read answers the byte and a write changes that
byte alone, and outside both raise AddressOutOfRange of the address. -/
def Obligations.MemoryPrimitivesAreBoundsChecked : Prop :=
  ∀ (s : State) (a : Nat) (v : Byte), Memory.wf s.mem = true →
    (a < 256 → memRead s a = .ok (s.cell a) ∧
      ∃ t, memWrite s a v = .ok t ∧ t = { s with mem := t.mem } ∧ Memory.wf t.mem = true ∧ t.cell a = v ∧
        KeepsMem s t [a]) ∧
    (256 ≤ a → memRead s a = .error (.addressOutOfRange a) ∧ memWrite s a v = .error (.addressOutOfRange a))

/-- Two memories in canonical form that read alike at each of the 256 addresses are the same list. -/
def Obligations.CanonicalMemoriesThatReadAlikeAreEqual : Prop :=
  ∀ m m' : List Host.Cell, Memory.wf m = true → Memory.wf m' = true →
    (∀ a : Nat, a < 256 → Memory.read m a = Memory.read m' a) → m = m'

/-! ### Encoding -/

/-- For every opcode of the table the fields n, alu and spc are the table's columns (30_encoding.md R76). -/
def Obligations.OpcodeFieldsMatchTheTable : Prop :=
  ∀ row ∈ ([(0b00000001, 0, false, false), (0b10000010, 2, false, false), (0b01000111, 1, false, false),
      (0b10100000, 2, true, false), (0b10100010, 2, true, false), (0b01000101, 1, false, false),
      (0b01000110, 1, false, false), (0b00010001, 0, false, true), (0b01010000, 1, false, true),
      (0b10100111, 2, true, false), (0b01010100, 1, false, true), (0b01010101, 1, false, true),
      (0b01010110, 1, false, true)] : List (Byte × Nat × Bool × Bool)),
    operandCount row.1 = row.2.1 ∧ isAlu row.1 = row.2.2.1 ∧ setsPc row.1 = row.2.2.2

/-- The class of every opcode byte, whatever the operand bytes (30_encoding.md R77): the 13 opcodes decode to their
instructions, the 125 other bytes with bit 5 set raise UnsupportedALUOperation, and the 118 other bytes with bit 5 clear
raise InvalidInstruction. -/
def Obligations.EveryOpcodeByteHasItsClass : Prop :=
  (∀ a b : Byte,
    decode ⟨0xA0, a, b⟩ = .ok (.add a b) ∧ decode ⟨0xA2, a, b⟩ = .ok (.mul a b) ∧ decode ⟨0xA7, a, b⟩ = .ok (.cmp a b) ∧
    decode ⟨0x01, a, b⟩ = .ok .hlt ∧ decode ⟨0x11, a, b⟩ = .ok .ret ∧ decode ⟨0x45, a, b⟩ = .ok (.push a) ∧
    decode ⟨0x46, a, b⟩ = .ok (.pop a) ∧ decode ⟨0x47, a, b⟩ = .ok (.prn a) ∧ decode ⟨0x50, a, b⟩ = .ok (.call a) ∧
    decode ⟨0x54, a, b⟩ = .ok (.jmp a) ∧ decode ⟨0x55, a, b⟩ = .ok (.jeq a) ∧ decode ⟨0x56, a, b⟩ = .ok (.jne a) ∧
    decode ⟨0x82, a, b⟩ = .ok (.ldi a b)) ∧
  (∀ ir a b : Byte,
    (decode ⟨ir, a, b⟩ = .error .unsupportedALUOperation ↔ ir.getLsbD 5 = true ∧ ¬ InAluTable ir) ∧
    (decode ⟨ir, a, b⟩ = .error .invalidInstruction ↔ ir.getLsbD 5 = false ∧ ¬ InDispatchTable ir)) ∧
  ((List.range 256).countP fun n =>
    match decode ⟨BitVec.ofNat 8 n, 0, 0⟩ with | .error .unsupportedALUOperation => true | _ => false) = 125 ∧
  ((List.range 256).countP fun n =>
    match decode ⟨BitVec.ofNat 8 n, 0, 0⟩ with | .error .invalidInstruction => true | _ => false) = 118

/-- Decoding an encoded instruction gives it back, at every value of its operands and whatever bytes follow it; its
length is what its opcode byte says. -/
def Obligations.DecodeOfEncodeIsTheInstruction : Prop :=
  ∀ (i : Instr) (rest : List Byte),
    decode (windowOf (encode i ++ rest)) = .ok i ∧ (encode i).length = instrLength (opcodeOf i)

/-- The bytes that a window decodes from are the encoding of the instruction it decodes to. -/
def Obligations.EncodeOfDecodeIsTheBytes : Prop :=
  ∀ (w : Window) (i : Instr), decode w = .ok i → encode i = [w.ir, w.a, w.b].take (instrLength w.ir)

/-- Bytes of the window beyond the instruction's length do not change what it decodes to (30_encoding.md R75, entry I3 of
93_implementation_defined.md). -/
def Obligations.BytesBeyondTheLengthAreNotLookedAt : Prop :=
  ∀ w w' : Window, w.ir = w'.ir → (2 ≤ instrLength w.ir → w.a = w'.a) → (3 ≤ instrLength w.ir → w.b = w'.b) →
    decode w = decode w'

/-- Words written out from the spec's encodings decode to the instructions they stand for, one or more of each family. -/
def Obligations.WrittenOutWordsDecode : Prop :=
  decode ⟨0b10100000, 0b00000000, 0b00000001⟩ = .ok (.add 0 1) ∧
  decode ⟨0b10100111, 0b00000010, 0b00000111⟩ = .ok (.cmp 2 7) ∧
  decode ⟨0b01000101, 0b00000111, 0b11111111⟩ = .ok (.push 7) ∧
  decode ⟨0b00010001, 0b00001001, 0b00000000⟩ = .ok .ret ∧
  decode ⟨0b01010101, 0b00000011, 0b00000000⟩ = .ok (.jeq 3) ∧
  decode ⟨0b10000010, 0b00000001, 0b11001000⟩ = .ok (.ldi 1 200) ∧
  decode ⟨0b00000010, 0b00000000, 0b00000000⟩ = .error .invalidInstruction ∧
  decode ⟨0b11111111, 0b00001001, 0b00001001⟩ = .error .unsupportedALUOperation

/-! ### The cycle -/

/-- Every step, from every state, answers a next state: the CORE's faults are states it enters.
That a faulting cycle, and a step of a Halted or Faulted CORE, answer a next state is the model's reading of 60_exceptions.md
R210 and of the spec's decision D17 (log 2). -/
def Obligations.EveryStepAnswersANextState : Prop := ∀ s : State, ∃ t, step s = .next t

/-- Halted and Faulted are terminal: no number of further steps changes anything (40_execution_loop.md R100; that a step
of a terminal state is the identity is the spec's decision D17; log 2). -/
def Obligations.TerminalStatesNeverChange : Prop :=
  ∀ s : State, s.status ≠ .running → ∀ k : Nat, Host.Core.run Sys2Proof.core k s = .next s

/-- A running CORE below its ceiling, whose whole fetch window is in range, runs the instruction its window decodes to,
on the state the cycle starts in; the pc and count updates are part of `exec`. -/
def Obligations.StepRunsTheDecodedInstruction : Prop :=
  ∀ (s : State) (i : Instr), s.status = .running → BelowCeiling s → s.pc.toNat ≤ 253 →
    decode ⟨s.cell s.pc.toNat, s.cell (s.pc.toNat + 1), s.cell (s.pc.toNat + 2)⟩ = .ok i → step s = exec i s

/-- At the ceiling a cycle raises Timeout before it fetches, at every pc (40_execution_loop.md R101; the spec's decisions
D8 and D9). -/
def Obligations.CeilingRaisesTimeout : Prop :=
  ∀ (s : State) (limit : Nat), s.status = .running → s.stepLimit = some limit → limit ≤ s.count →
    step s = .next { s with
      status := .faulted .timeout, fault := { fpc := s.pc, fopc := 0, faddr := 0, freg := 0, fcount := s.count } }

/-- Below the ceiling a cycle at pc 254 or above raises AddressOutOfRange whatever its bytes are, and FADDR is 256 for
every pc up to 256 (40_execution_loop.md R102; the spec's decisions D2 and D8). That FADDR is pc at 257 to 511, which no
run reaches, is the model's reading of R102 (log 6). -/
def Obligations.FetchPastTheEndRaisesAddressOutOfRange : Prop :=
  ∀ s : State, s.status = .running → BelowCeiling s → 254 ≤ s.pc.toNat →
    ∃ t, step s = .next t ∧ FaultsKeepingState .addressOutOfRange s t ∧ t.fault.fpc = s.pc ∧
      t.fault.faddr.toNat = max 256 s.pc.toNat ∧ t.fault.fopc = 0 ∧ t.fault.freg = 0 ∧ t.fault.fcount = 0

/-- An opcode with bit 5 set that is not in the ALU table raises UnsupportedALUOperation, whatever its operand bytes,
its operand count and its sets_pc bit, and nothing changes but status and the fault record (41_alu.md R124). -/
def Obligations.UnsupportedAluOpcodeFaults : Prop :=
  ∀ s : State, Fetches s → (s.cell s.pc.toNat).getLsbD 5 = true → ¬ InAluTable (s.cell s.pc.toNat) →
    ∃ t, step s = .next t ∧ FaultsKeepingState .unsupportedALUOperation s t

/-- An opcode with bit 5 clear that is not in the dispatch table raises InvalidInstruction, with Memory and the registers
unchanged (60_exceptions.md R205). -/
def Obligations.OpcodeInNeitherTableFaults : Prop :=
  ∀ s : State, Fetches s → (s.cell s.pc.toNat).getLsbD 5 = false → ¬ InDispatchTable (s.cell s.pc.toNat) →
    ∃ t, step s = .next t ∧ FaultsKeepingState .invalidInstruction s t

/-- An instruction whose first register operand outside [0,8) is `r`, in the order `a`, `b`, raises InvalidRegister and
records the opcode and `r`; JEQ and JNE do so whether or not they would branch (40_execution_loop.md R106; the spec's
decisions D4 and D8). -/
def Obligations.IllFormedInstructionRaisesInvalidRegister : Prop :=
  ∀ (i : Instr) (s : State) (r : Byte), i.registerOperands.find? (fun q => decide (8 ≤ q.toNat)) = some r →
    exec i s = .next { s with
      status := .faulted .invalidRegister,
      fault := { fpc := s.pc, fopc := (encode i).headD 0, faddr := 0, freg := r, fcount := 0 } }

/-- A handler that starts always completes: an instruction whose register operands exist never ends in a fault
(20_memory.md R53, 40_execution_loop.md R106, which the spec derives). -/
def Obligations.WellFormedInstructionNeverFaults : Prop :=
  ∀ (i : Instr) (s : State), i.wellFormed = true → NotFaulted s → ∃ t, exec i s = .next t ∧ NotFaulted t

/-- A running cycle reports the first fault that applies, in the order Timeout, AddressOutOfRange, the decode fault,
InvalidRegister, and ends without one if none applies (60_exceptions.md R208, the spec's decision D5). -/
def Obligations.FirstFaultInPriorityOrderDecides : Prop :=
  ∀ s : State, s.status = .running →
    ∃ t, step s = .next t ∧
      (∀ kind, firstFault s = some kind → t.status = .faulted kind) ∧ (firstFault s = none → NotFaulted t)

/-- Faults are precise: a cycle that ends Faulted changed nothing but status and the fault record, and the record holds
what its kind records (60_exceptions.md R209, R210; the record's fields are the spec's decision D8). That FADDR is pc
above 256, where no run gets, is the model's reading of 40_execution_loop.md R102 (log 6). -/
def Obligations.FaultsArePrecise : Prop :=
  ∀ (s t : State) (kind : FaultKind), s.status = .running → step s = .next t → t.status = .faulted kind →
    FaultsKeepingState kind s t ∧
      t.fault =
        match kind with
        | .addressOutOfRange =>
          { fpc := s.pc, fopc := 0, faddr := if s.pc.toNat ≤ 256 then 256 else s.pc, freg := 0, fcount := 0 }
        | .invalidRegister =>
          { fpc := s.pc, fopc := s.cell s.pc.toNat, faddr := 0,
            freg := if 8 ≤ (s.cell (s.pc.toNat + 1)).toNat then s.cell (s.pc.toNat + 1) else s.cell (s.pc.toNat + 2),
            fcount := 0 }
        | .invalidInstruction => { fpc := s.pc, fopc := s.cell s.pc.toNat, faddr := 0, freg := 0, fcount := 0 }
        | .unsupportedALUOperation => { fpc := s.pc, fopc := s.cell s.pc.toNat, faddr := 0, freg := 0, fcount := 0 }
        | .timeout => { fpc := s.pc, fopc := 0, faddr := 0, freg := 0, fcount := s.count }

/-- count goes up by 1 in every cycle that does not fault, HLT's included, and a faulting cycle does not change it
(40_execution_loop.md R108, the spec's decision D16). -/
def Obligations.CountCountsCompletedInstructions : Prop :=
  ∀ s t : State, s.status = .running → step s = .next t →
    (NotFaulted t → t.count = s.count + 1) ∧ (¬ NotFaulted t → t.count = s.count)

/-! ### Invariants and runs -/

/-- Every step keeps the invariant: canonical memory, pc in 0 to 256, at most one of EQ, GT and LT with bits 7 to 3 clear,
a fault record that agrees with status, and no more completed instructions than STEP_LIMIT. -/
def Obligations.StepKeepsInvariant : Prop :=
  ∀ s t : State, Inv s → step s = .next t → Inv t

/-- With STEP_LIMIT = some L every run ends within L + 1 cycles of a state whose count is 0, and sooner from a later one,
with at most L instructions completed (70_reset_and_hazards.md R236, which the spec derives). Steps after the end of the
run, which are no cycles of the CORE, are counted as identities: the model's reading of the spec's decision D17 (log 2). -/
def Obligations.RunEndsWithinTheCeiling : Prop :=
  ∀ (s : State) (limit : Nat), s.stepLimit = some limit → s.count ≤ limit →
    ∃ t, Host.Core.run Sys2Proof.core (limit + 1 - s.count) s = .next t ∧ t.status ≠ .running ∧ t.count ≤ limit

/-! ### What only certain instructions do -/

/-- Only CMP writes flags (10_state.md R27). -/
def Obligations.OnlyCmpWritesFlags : Prop :=
  ∀ (i : Instr) (s t : State), exec i s = .next t → (∀ a b, i ≠ .cmp a b) → t.flags = s.flags

/-- Only JEQ and JNE read flags (10_state.md R27): any other instruction does the same to everything else from any value
of flags. CMP leaves the same flags from any of them, since it writes the whole byte (the spec's decision D18), where its
operands are registers, and every other form leaves flags as it found them. -/
def Obligations.OnlyJeqAndJneReadFlags : Prop :=
  ∀ (i : Instr) (s t : State) (v : Byte), (∀ a, i ≠ .jeq a) → (∀ a, i ≠ .jne a) → exec i s = .next t →
    ∃ u, exec i { s with flags := v } = .next u ∧ { u with flags := t.flags } = t ∧
      ((∃ a b, i = .cmp a b) ∧ i.wellFormed = true → u.flags = t.flags) ∧
      (¬ ((∃ a b, i = .cmp a b) ∧ i.wellFormed = true) → u.flags = v)

/-- No instruction reads count or STEP_LIMIT (10_state.md R32): it does the same to everything else from any values of
them, and moves count as it would have. -/
def Obligations.NoInstructionReadsCountOrStepLimit : Prop :=
  ∀ (i : Instr) (s t : State) (c : Nat) (limit : Option Nat), exec i s = .next t →
    ∃ u, exec i { s with count := c, stepLimit := limit } = .next u ∧
      { u with count := t.count, stepLimit := t.stepLimit } = t ∧ u.count + s.count = t.count + c ∧ u.stepLimit = limit

/-- out is empty at reset, only PRN appends to it, at its end and the byte it emits, and nothing removes from it
(10_state.md R33). -/
def Obligations.OnlyPrnAppendsToOutput : Prop :=
  State.reset.out = [] ∧
  (∀ (i : Instr) (s t : State), exec i s = .next t →
    ∃ appended, t.out = s.out ++ appended ∧
      (appended ≠ [] → ∃ (a : Byte) (ra : Fin 8), i = .prn a ∧ a.toNat = ra ∧ appended = [s.reg ra])) ∧
  (∀ s t : State, step s = .next t → s.out <+: t.out)

/-- Only HLT sets Halted; JMP, CALL, RET, JEQ and JNE leave status Running, as every other instruction that does not
fault does (40_execution_loop.md R111). -/
def Obligations.OnlyHltHalts : Prop :=
  ∀ (i : Instr) (s t : State), s.status = .running → exec i s = .next t →
    (t.status = .halted ↔ i = .hlt) ∧ (i.wellFormed = true → i ≠ .hlt → t.status = .running)

/-- Only PUSH and CALL write Memory, and only the byte at the decremented sp: all of Memory keeps its bytes in any other
instruction (20_memory.md R52). -/
def Obligations.OnlyPushAndCallWriteMemory : Prop :=
  ∀ (i : Instr) (s t : State), Memory.wf s.mem = true → exec i s = .next t →
    ((∀ a, i ≠ .push a) → (∀ a, i ≠ .call a) → t.mem = s.mem) ∧ KeepsMem s t [(s.sp.toNat + 255) % 256]

/-- Which registers an instruction may write, the last column of the table of 10_state.md R21: its destination, and R7
where it moves the stack pointer. -/
def Obligations.OnlyDestinationRegistersAreWritten : Prop :=
  ∀ (i : Instr) (s t : State) (r : Fin 8), exec i s = .next t →
    (match i with
      | .ldi a _ => a.toNat ≠ r
      | .add a _ => a.toNat ≠ r
      | .mul a _ => a.toNat ≠ r
      | .pop a => a.toNat ≠ r ∧ r ≠ 7
      | .push _ => r ≠ 7
      | .call _ => r ≠ 7
      | .ret => r ≠ 7
      | .hlt => True
      | .prn _ => True
      | .cmp _ _ => True
      | .jmp _ => True
      | .jeq _ => True
      | .jne _ => True) →
    t.reg r = s.reg r

/-! ### The ALU instructions -/

/-- ADD (41_alu.md R121). -/
def Obligations.AddWritesTheSumModulo256 : Prop :=
  ∀ (a b : Byte) (s : State),
    encode (.add a b) = [0b10100000, a, b] ∧
    (∀ ra rb : Fin 8, a.toNat = ra → b.toNat = rb →
      ∃ t, exec (.add a b) s = .next t ∧
        (t.reg ra).toNat = ((s.reg ra).toNat + (s.reg rb).toNat) % 256 ∧
        KeepsRegs s t [ra] ∧ KeepsMem s t [] ∧ t.flags = s.flags ∧ t.out = s.out ∧ KeepsControl s t ∧
        AdvancesPc s t 3) ∧
    (8 ≤ a.toNat ∨ 8 ≤ b.toNat → ∃ t, exec (.add a b) s = .next t ∧ FaultsKeepingState .invalidRegister s t)

/-- MUL (41_alu.md R122). -/
def Obligations.MulWritesTheProductModulo256 : Prop :=
  ∀ (a b : Byte) (s : State),
    encode (.mul a b) = [0b10100010, a, b] ∧
    (∀ ra rb : Fin 8, a.toNat = ra → b.toNat = rb →
      ∃ t, exec (.mul a b) s = .next t ∧
        (t.reg ra).toNat = ((s.reg ra).toNat * (s.reg rb).toNat) % 256 ∧
        KeepsRegs s t [ra] ∧ KeepsMem s t [] ∧ t.flags = s.flags ∧ t.out = s.out ∧ KeepsControl s t ∧
        AdvancesPc s t 3) ∧
    (8 ≤ a.toNat ∨ 8 ≤ b.toNat → ∃ t, exec (.mul a b) s = .next t ∧ FaultsKeepingState .invalidRegister s t)

/-- CMP (41_alu.md R123; that it writes the whole byte is the spec's decision D18). -/
def Obligations.CmpWritesTheComparisonToFlags : Prop :=
  ∀ (a b : Byte) (s : State),
    encode (.cmp a b) = [0b10100111, a, b] ∧
    (∀ ra rb : Fin 8, a.toNat = ra → b.toNat = rb →
      ∃ t, exec (.cmp a b) s = .next t ∧
        ((s.reg ra).toNat = (s.reg rb).toNat → t.flags = 0b00000001) ∧
        ((s.reg rb).toNat < (s.reg ra).toNat → t.flags = 0b00000010) ∧
        ((s.reg ra).toNat < (s.reg rb).toNat → t.flags = 0b00000100) ∧
        KeepsRegs s t [] ∧ KeepsMem s t [] ∧ t.out = s.out ∧ KeepsControl s t ∧ AdvancesPc s t 3) ∧
    (8 ≤ a.toNat ∨ 8 ≤ b.toNat → ∃ t, exec (.cmp a b) s = .next t ∧ FaultsKeepingState .invalidRegister s t)

/-- After CMP exactly one of EQ, GT and LT is set, bits 7 to 3 are 0, and of a JEQ and a JNE that run next exactly one is
taken: JEQ if the registers were equal, JNE if not (10_state.md R29, 43_control_flow.md R162; the spec derives R29). -/
def Obligations.AfterCmpOneFlagIsSetAndDecidesTheBranch : Prop :=
  ∀ (a b c : Byte) (ra rb rc : Fin 8) (s t : State), a.toNat = ra → b.toNat = rb → c.toNat = rc → s.pc.toNat ≤ 253 →
    exec (.cmp a b) s = .next t →
      ([t.flags.getLsbD 0, t.flags.getLsbD 1, t.flags.getLsbD 2].count true = 1 ∧ t.flags.toNat < 8) ∧
      (t.pc.toNat ≤ 253 → ∃ u v, exec (.jeq c) t = .next u ∧ exec (.jne c) t = .next v ∧
        (s.reg ra = s.reg rb → u.pc.toNat = (s.reg rc).toNat ∧ v.pc.toNat = s.pc.toNat + 5) ∧
        (s.reg ra ≠ s.reg rb → u.pc.toNat = s.pc.toNat + 5 ∧ v.pc.toNat = (s.reg rc).toNat))

/-! ### The stack and subroutine instructions -/

/-- PUSH (42_stack_and_calls.md R140; that PUSH R7 stores the decremented sp is the spec's decision D7). -/
def Obligations.PushStoresBelowTheStackPointer : Prop :=
  ∀ (a : Byte) (s : State), Memory.wf s.mem = true →
    encode (.push a) = [0b01000101, a] ∧
    (∀ ra : Fin 8, a.toNat = ra →
      ∃ t, exec (.push a) s = .next t ∧
        pushAddress s = (s.sp.toNat + 255) % 256 ∧ t.sp.toNat = pushAddress s ∧
        t.cell (pushAddress s) = (if ra = 7 then t.sp else s.reg ra) ∧
        KeepsRegs s t [7] ∧ KeepsMem s t [pushAddress s] ∧ t.flags = s.flags ∧ t.out = s.out ∧ KeepsControl s t ∧
        AdvancesPc s t 2) ∧
    (8 ≤ a.toNat → ∃ t, exec (.push a) s = .next t ∧ FaultsKeepingState .invalidRegister s t)

/-- POP (42_stack_and_calls.md R141; that POP R7 increments the popped value is the spec's decision D7). -/
def Obligations.PopLoadsFromTheStackPointer : Prop :=
  ∀ (a : Byte) (s : State),
    encode (.pop a) = [0b01000110, a] ∧
    (∀ ra : Fin 8, a.toNat = ra →
      ∃ t, exec (.pop a) s = .next t ∧
        (ra ≠ 7 → t.reg ra = s.cell s.sp.toNat ∧ t.sp.toNat = (s.sp.toNat + 1) % 256) ∧
        (ra = 7 → t.sp.toNat = ((s.cell s.sp.toNat).toNat + 1) % 256) ∧
        KeepsRegs s t [ra, 7] ∧ KeepsMem s t [] ∧ t.flags = s.flags ∧ t.out = s.out ∧ KeepsControl s t ∧
        AdvancesPc s t 2) ∧
    (8 ≤ a.toNat → ∃ t, exec (.pop a) s = .next t ∧ FaultsKeepingState .invalidRegister s t)

/-- CALL (42_stack_and_calls.md R142; that CALL R7 jumps to the decremented sp is the spec's decision D7, and that p + 2
fits in a byte where a CALL executes is derived by the spec). -/
def Obligations.CallPushesTheReturnAddressAndJumps : Prop :=
  ∀ (a : Byte) (s : State), Memory.wf s.mem = true →
    encode (.call a) = [0b01010000, a] ∧
    (∀ ra : Fin 8, a.toNat = ra →
      ∃ t, exec (.call a) s = .next t ∧
        pushAddress s = (s.sp.toNat + 255) % 256 ∧ t.sp.toNat = pushAddress s ∧
        (s.pc.toNat ≤ 253 → (t.cell (pushAddress s)).toNat = s.pc.toNat + 2) ∧
        t.pc.toNat = (if ra = 7 then t.sp.toNat else (s.reg ra).toNat) ∧
        KeepsRegs s t [7] ∧ KeepsMem s t [pushAddress s] ∧ t.flags = s.flags ∧ t.out = s.out ∧ KeepsControl s t) ∧
    (8 ≤ a.toNat → ∃ t, exec (.call a) s = .next t ∧ FaultsKeepingState .invalidRegister s t)

/-- RET (42_stack_and_calls.md R143). -/
def Obligations.RetPopsThePc : Prop :=
  ∀ s : State,
    encode .ret = [0b00010001] ∧
    ∃ t, exec .ret s = .next t ∧
      t.pc.toNat = (s.cell s.sp.toNat).toNat ∧ t.sp.toNat = (s.sp.toNat + 1) % 256 ∧
      KeepsRegs s t [7] ∧ KeepsMem s t [] ∧ t.flags = s.flags ∧ t.out = s.out ∧ KeepsControl s t

/-- PUSH a followed by POP a restores every register, sp among them, for each a, R7 too; the pushed byte is left in the
cell below sp (42_stack_and_calls.md R144, which the spec derives). -/
def Obligations.PushThenPopRestoresTheRegisters : Prop :=
  ∀ (a : Byte) (ra : Fin 8) (s : State), Memory.wf s.mem = true → a.toNat = ra →
    ∃ t u, exec (.push a) s = .next t ∧ exec (.pop a) t = .next u ∧ u.x = s.x ∧
      u.cell ((s.sp.toNat + 255) % 256) = t.cell t.sp.toNat ∧ KeepsMem s u [(s.sp.toNat + 255) % 256]

/-- A RET that finds sp and the byte at sp as CALL left them continues at the address after the CALL, with sp as before it
(42_stack_and_calls.md R144, which the spec derives). -/
def Obligations.CallThenRetReturnsAfterTheCall : Prop :=
  ∀ (a : Byte) (ra : Fin 8) (s : State), Memory.wf s.mem = true → a.toNat = ra → s.pc.toNat ≤ 253 →
    ∃ t, exec (.call a) s = .next t ∧
      ∀ u : State, u.sp = t.sp → u.cell u.sp.toNat = t.cell t.sp.toNat →
        ∃ v, exec .ret u = .next v ∧ v.pc.toNat = s.pc.toNat + 2 ∧ v.sp = s.sp

/-- The stack pointer wraps modulo 256 both ways, and nothing detects it, in status, the fault record, flags or out: a
PUSH at sp = 0x00 writes address 0xFF, and a POP at sp = 0xFF reads 0xFF and leaves sp = 0x00 (20_memory.md R58), except
that POP R7 leaves the popped value plus 1 (the spec's decision D7). -/
def Obligations.StackPointerWraps : Prop :=
  ∀ (a : Byte) (ra : Fin 8) (s : State), Memory.wf s.mem = true → a.toNat = ra →
    (s.sp = 0x00 → ∃ t, exec (.push a) s = .next t ∧ t.sp = 0xFF ∧
      t.cell 0xFF = (if ra = 7 then 0xFF else s.reg ra) ∧ KeepsMem s t [0xFF] ∧ KeepsControl s t ∧
      t.flags = s.flags ∧ t.out = s.out) ∧
    (s.sp = 0xFF → ∃ t, exec (.pop a) s = .next t ∧
      (if ra = 7 then t.sp.toNat = ((s.cell 0xFF).toNat + 1) % 256 else t.sp = 0x00 ∧ t.reg ra = s.cell 0xFF) ∧
      KeepsMem s t [] ∧ KeepsControl s t ∧ t.flags = s.flags ∧ t.out = s.out)

/-- A byte that PUSH or CALL stores is what the very next fetch latches there, wherever in its window it lies, and the
window's other bytes are as before (20_memory.md R62, which the spec derives), wherever a cycle executes the instruction
(pc at most 253; log 5). -/
def Obligations.NextFetchSeesTheStoredByte : Prop :=
  ∀ (i : Instr) (s t : State), Memory.wf s.mem = true → s.pc.toNat ≤ 253 → i.wellFormed = true →
    ((∃ a, i = .push a) ∨ (∃ a, i = .call a)) → exec i s = .next t → t.pc.toNat ≤ 253 →
    ∃ w, fetchWindow t = .ok w ∧
      [w.ir, w.a, w.b] = (List.range 3).map fun k =>
        if t.pc.toNat + k = pushAddress s then
          (match i with
            | .call _ => wrapByte (s.pc.toNat + 2)
            | .push a => if a.toNat = 7 then t.sp else (s.x.toList.getD a.toNat 0)
            | _ => 0)
        else s.cell (t.pc.toNat + k)

/-! ### The control-flow instructions -/

/-- JMP (43_control_flow.md R160). -/
def Obligations.JmpSetsThePc : Prop :=
  ∀ (a : Byte) (s : State),
    encode (.jmp a) = [0b01010100, a] ∧
    (∀ ra : Fin 8, a.toNat = ra →
      ∃ t, exec (.jmp a) s = .next t ∧ t.pc.toNat = (s.reg ra).toNat ∧
        KeepsRegs s t [] ∧ KeepsMem s t [] ∧ t.flags = s.flags ∧ t.out = s.out ∧ KeepsControl s t) ∧
    (8 ≤ a.toNat → ∃ t, exec (.jmp a) s = .next t ∧ FaultsKeepingState .invalidRegister s t)

/-- JEQ (43_control_flow.md R161; that its operand is checked when it does not branch is the spec's decision D4). -/
def Obligations.JeqBranchesIfEqualIsSet : Prop :=
  ∀ (a : Byte) (s : State),
    encode (.jeq a) = [0b01010101, a] ∧
    (∀ ra : Fin 8, a.toNat = ra →
      ∃ t, exec (.jeq a) s = .next t ∧
        (s.flags.getLsbD 0 = true → t.pc.toNat = (s.reg ra).toNat) ∧
        (s.flags.getLsbD 0 = false → AdvancesPc s t 2) ∧
        KeepsRegs s t [] ∧ KeepsMem s t [] ∧ t.flags = s.flags ∧ t.out = s.out ∧ KeepsControl s t) ∧
    (8 ≤ a.toNat → ∃ t, exec (.jeq a) s = .next t ∧ FaultsKeepingState .invalidRegister s t)

/-- JNE (43_control_flow.md R162; that its operand is checked when it does not branch is the spec's decision D4). -/
def Obligations.JneBranchesIfEqualIsClear : Prop :=
  ∀ (a : Byte) (s : State),
    encode (.jne a) = [0b01010110, a] ∧
    (∀ ra : Fin 8, a.toNat = ra →
      ∃ t, exec (.jne a) s = .next t ∧
        (s.flags.getLsbD 0 = false → t.pc.toNat = (s.reg ra).toNat) ∧
        (s.flags.getLsbD 0 = true → AdvancesPc s t 2) ∧
        KeepsRegs s t [] ∧ KeepsMem s t [] ∧ t.flags = s.flags ∧ t.out = s.out ∧ KeepsControl s t) ∧
    (8 ≤ a.toNat → ∃ t, exec (.jne a) s = .next t ∧ FaultsKeepingState .invalidRegister s t)

/-- Every target of a control transfer that is taken or falls through, from where an instruction can execute, is in
[0,256), and no instruction leaves pc above 256 (43_control_flow.md R163, 10_state.md R25 and R26, where the range is
derived by the spec). -/
def Obligations.PcStaysInRange : Prop :=
  ∀ (i : Instr) (s t : State), s.pc.toNat ≤ 253 → exec i s = .next t →
    t.pc.toNat ≤ 256 ∧
    ((i = .ret ∨ ∃ a, i = .jmp a ∨ i = .jeq a ∨ i = .jne a ∨ i = .call a) → t.pc.toNat < 256)

/-! ### Halt, immediate load and output -/

/-- HLT (44_halt_load_output.md R180; that its cycle advances pc is the spec's decision D6). -/
def Obligations.HltHalts : Prop :=
  ∀ s : State,
    encode .hlt = [0b00000001] ∧
    ∃ t, exec .hlt s = .next t ∧ t.status = .halted ∧ AdvancesPc s t 1 ∧
      KeepsRegs s t [] ∧ KeepsMem s t [] ∧ t.flags = s.flags ∧ t.out = s.out ∧ t.fault = s.fault ∧
      t.stepLimit = s.stepLimit

/-- LDI (44_halt_load_output.md R181). -/
def Obligations.LdiWritesTheImmediate : Prop :=
  ∀ (a imm : Byte) (s : State),
    encode (.ldi a imm) = [0b10000010, a, imm] ∧
    (∀ ra : Fin 8, a.toNat = ra →
      ∃ t, exec (.ldi a imm) s = .next t ∧ t.reg ra = imm ∧
        KeepsRegs s t [ra] ∧ KeepsMem s t [] ∧ t.flags = s.flags ∧ t.out = s.out ∧ KeepsControl s t ∧
        AdvancesPc s t 3) ∧
    (8 ≤ a.toNat → ∃ t, exec (.ldi a imm) s = .next t ∧ FaultsKeepingState .invalidRegister s t)

/-- PRN (44_halt_load_output.md R182), and the line the host writes for the byte (the spec's decision D11): its unsigned
decimal digits and LF. -/
def Obligations.PrnAppendsTheRegister : Prop :=
  ∀ (a : Byte) (s : State),
    encode (.prn a) = [0b01000111, a] ∧
    (∀ ra : Fin 8, a.toNat = ra →
      ∃ t, exec (.prn a) s = .next t ∧ t.out = s.out ++ [s.reg ra] ∧
        renderOutput t.out = renderOutput s.out ++ decimalDigits (s.reg ra) ++ [0x0A] ∧
        KeepsRegs s t [] ∧ KeepsMem s t [] ∧ t.flags = s.flags ∧ KeepsControl s t ∧ AdvancesPc s t 2) ∧
    (8 ≤ a.toNat → ∃ t, exec (.prn a) s = .next t ∧ FaultsKeepingState .invalidRegister s t)

/-- The decimal digits of a byte are ASCII digits, denote its unsigned value, and have no leading zero (the spec's
decision D11). -/
def Obligations.DecimalDigitsDenoteTheByte : Prop :=
  ∀ v : Byte,
    (decimalDigits v).foldl (fun n d => 10 * n + (d.toNat - 48)) 0 = v.toNat ∧
    (∀ d ∈ decimalDigits v, 48 ≤ d.toNat ∧ d.toNat ≤ 57) ∧
    (1 < (decimalDigits v).length → (decimalDigits v).head? ≠ some 48)

/-! ### The status register -/

/-- STATE is 0 for Running, 1 for Halted and 2 for Faulted, CAUSE is at most 5 and is nonzero exactly when STATE is 2, and each kind has a code of
its own (10_state.md R30, 60_exceptions.md R200; the codes are the spec's decision D8). -/
def Obligations.StatusCodesAgree : Prop :=
  (∀ st : Status, st.stateCode.toNat ≤ 2 ∧ st.causeCode.toNat ≤ 5 ∧ (st.causeCode ≠ 0 ↔ st.stateCode = 2)) ∧
  (∀ st st' : Status, st.stateCode = st'.stateCode → st.causeCode = st'.causeCode → st = st') ∧
  Status.running.stateCode = 0 ∧ Status.halted.stateCode = 1 ∧ (∀ k, (Status.faulted k).stateCode = 2) ∧
  (Status.faulted .addressOutOfRange).causeCode = 1 ∧ (Status.faulted .invalidRegister).causeCode = 2 ∧
  (Status.faulted .invalidInstruction).causeCode = 3 ∧ (Status.faulted .unsupportedALUOperation).causeCode = 4 ∧
  (Status.faulted .timeout).causeCode = 5
end

