-- ==== Sys2Proof/Laws/Decode.lean ====
section
/-! SUPPORT. What the decoder can do, once: each opcode byte with its instruction, and each class of illegal byte with its
error. -/

namespace Sys2Proof

/-! ### The ALU bit of each opcode -/

theorem isAlu_ADD : isAlu opADD = true := by decide
theorem isAlu_MUL : isAlu opMUL = true := by decide
theorem isAlu_CMP : isAlu opCMP = true := by decide
theorem isAlu_HLT : isAlu opHLT = false := by decide
theorem isAlu_RET : isAlu opRET = false := by decide
theorem isAlu_PUSH : isAlu opPUSH = false := by decide
theorem isAlu_POP : isAlu opPOP = false := by decide
theorem isAlu_PRN : isAlu opPRN = false := by decide
theorem isAlu_CALL : isAlu opCALL = false := by decide
theorem isAlu_JMP : isAlu opJMP = false := by decide
theorem isAlu_JEQ : isAlu opJEQ = false := by decide
theorem isAlu_JNE : isAlu opJNE = false := by decide
theorem isAlu_LDI : isAlu opLDI = false := by decide

/-! ### Who advances pc, and by how much -/

@[simp] theorem setsPc_HLT : setsPc opHLT = false := by decide
@[simp] theorem setsPc_LDI : setsPc opLDI = false := by decide
@[simp] theorem setsPc_PRN : setsPc opPRN = false := by decide
@[simp] theorem setsPc_ADD : setsPc opADD = false := by decide
@[simp] theorem setsPc_MUL : setsPc opMUL = false := by decide
@[simp] theorem setsPc_PUSH : setsPc opPUSH = false := by decide
@[simp] theorem setsPc_POP : setsPc opPOP = false := by decide
@[simp] theorem setsPc_RET : setsPc opRET = true := by decide
@[simp] theorem setsPc_CALL : setsPc opCALL = true := by decide
@[simp] theorem setsPc_CMP : setsPc opCMP = false := by decide
@[simp] theorem setsPc_JMP : setsPc opJMP = true := by decide
@[simp] theorem setsPc_JEQ : setsPc opJEQ = true := by decide
@[simp] theorem setsPc_JNE : setsPc opJNE = true := by decide
@[simp] theorem instrLength_HLT : instrLength opHLT = 1 := by decide
@[simp] theorem instrLength_LDI : instrLength opLDI = 3 := by decide
@[simp] theorem instrLength_PRN : instrLength opPRN = 2 := by decide
@[simp] theorem instrLength_ADD : instrLength opADD = 3 := by decide
@[simp] theorem instrLength_MUL : instrLength opMUL = 3 := by decide
@[simp] theorem instrLength_PUSH : instrLength opPUSH = 2 := by decide
@[simp] theorem instrLength_POP : instrLength opPOP = 2 := by decide
@[simp] theorem instrLength_RET : instrLength opRET = 1 := by decide
@[simp] theorem instrLength_CALL : instrLength opCALL = 2 := by decide
@[simp] theorem instrLength_CMP : instrLength opCMP = 3 := by decide
@[simp] theorem instrLength_JMP : instrLength opJMP = 2 := by decide
@[simp] theorem instrLength_JEQ : instrLength opJEQ = 2 := by decide
@[simp] theorem instrLength_JNE : instrLength opJNE = 2 := by decide

/-! ### The two routes -/

theorem decode_alu {w : Window} (h : isAlu w.ir = true) : decode w = decodeAlu w := if_pos h

theorem decode_nonAlu {w : Window} (h : isAlu w.ir = false) : decode w = decodeNonAlu w := by
  simp [decode, h]

/-! ### Each opcode of the table -/

theorem decode_ADD (a b : Byte) : decode ⟨opADD, a, b⟩ = .ok (.add a b) :=
  (decode_alu (w := ⟨opADD, a, b⟩) isAlu_ADD).trans (by simp [decodeAlu])
theorem decode_MUL (a b : Byte) : decode ⟨opMUL, a, b⟩ = .ok (.mul a b) :=
  (decode_alu (w := ⟨opMUL, a, b⟩) isAlu_MUL).trans (by simp [decodeAlu])
theorem decode_CMP (a b : Byte) : decode ⟨opCMP, a, b⟩ = .ok (.cmp a b) :=
  (decode_alu (w := ⟨opCMP, a, b⟩) isAlu_CMP).trans (by simp [decodeAlu])
theorem decode_HLT (a b : Byte) : decode ⟨opHLT, a, b⟩ = .ok .hlt :=
  (decode_nonAlu (w := ⟨opHLT, a, b⟩) isAlu_HLT).trans (by simp [decodeNonAlu])
theorem decode_RET (a b : Byte) : decode ⟨opRET, a, b⟩ = .ok .ret :=
  (decode_nonAlu (w := ⟨opRET, a, b⟩) isAlu_RET).trans (by simp [decodeNonAlu])
theorem decode_PUSH (a b : Byte) : decode ⟨opPUSH, a, b⟩ = .ok (.push a) :=
  (decode_nonAlu (w := ⟨opPUSH, a, b⟩) isAlu_PUSH).trans (by simp [decodeNonAlu])
theorem decode_POP (a b : Byte) : decode ⟨opPOP, a, b⟩ = .ok (.pop a) :=
  (decode_nonAlu (w := ⟨opPOP, a, b⟩) isAlu_POP).trans (by simp [decodeNonAlu])
theorem decode_PRN (a b : Byte) : decode ⟨opPRN, a, b⟩ = .ok (.prn a) :=
  (decode_nonAlu (w := ⟨opPRN, a, b⟩) isAlu_PRN).trans (by simp [decodeNonAlu])
theorem decode_CALL (a b : Byte) : decode ⟨opCALL, a, b⟩ = .ok (.call a) :=
  (decode_nonAlu (w := ⟨opCALL, a, b⟩) isAlu_CALL).trans (by simp [decodeNonAlu])
theorem decode_JMP (a b : Byte) : decode ⟨opJMP, a, b⟩ = .ok (.jmp a) :=
  (decode_nonAlu (w := ⟨opJMP, a, b⟩) isAlu_JMP).trans (by simp [decodeNonAlu])
theorem decode_JEQ (a b : Byte) : decode ⟨opJEQ, a, b⟩ = .ok (.jeq a) :=
  (decode_nonAlu (w := ⟨opJEQ, a, b⟩) isAlu_JEQ).trans (by simp [decodeNonAlu])
theorem decode_JNE (a b : Byte) : decode ⟨opJNE, a, b⟩ = .ok (.jne a) :=
  (decode_nonAlu (w := ⟨opJNE, a, b⟩) isAlu_JNE).trans (by simp [decodeNonAlu])
theorem decode_LDI (a b : Byte) : decode ⟨opLDI, a, b⟩ = .ok (.ldi a b) :=
  (decode_nonAlu (w := ⟨opLDI, a, b⟩) isAlu_LDI).trans (by simp [decodeNonAlu])

/-! ### Everything the decoder can do -/

/-- The ALU route (40_execution_loop.md R104). -/
theorem decodeAlu_cases (w : Window) :
    (w.ir = opADD ∧ decodeAlu w = .ok (.add w.a w.b)) ∨ (w.ir = opMUL ∧ decodeAlu w = .ok (.mul w.a w.b)) ∨
    (w.ir = opCMP ∧ decodeAlu w = .ok (.cmp w.a w.b)) ∨
    (w.ir ≠ opADD ∧ w.ir ≠ opMUL ∧ w.ir ≠ opCMP ∧ decodeAlu w = .error .unsupportedALUOperation) := by
  unfold decodeAlu
  split
  · simp [*]
  split
  · simp [*]
  split
  · simp [*]
  exact .inr (.inr (.inr ⟨‹_›, ‹_›, ‹_›, rfl⟩))

/-- The non-ALU route (40_execution_loop.md R105). -/
theorem decodeNonAlu_cases (w : Window) :
    (w.ir = opHLT ∧ decodeNonAlu w = .ok .hlt) ∨ (w.ir = opRET ∧ decodeNonAlu w = .ok .ret) ∨
    (w.ir = opPUSH ∧ decodeNonAlu w = .ok (.push w.a)) ∨ (w.ir = opPOP ∧ decodeNonAlu w = .ok (.pop w.a)) ∨
    (w.ir = opPRN ∧ decodeNonAlu w = .ok (.prn w.a)) ∨ (w.ir = opCALL ∧ decodeNonAlu w = .ok (.call w.a)) ∨
    (w.ir = opJMP ∧ decodeNonAlu w = .ok (.jmp w.a)) ∨ (w.ir = opJEQ ∧ decodeNonAlu w = .ok (.jeq w.a)) ∨
    (w.ir = opJNE ∧ decodeNonAlu w = .ok (.jne w.a)) ∨ (w.ir = opLDI ∧ decodeNonAlu w = .ok (.ldi w.a w.b)) ∨
    ((w.ir ≠ opHLT ∧ w.ir ≠ opRET ∧ w.ir ≠ opPUSH ∧ w.ir ≠ opPOP ∧ w.ir ≠ opPRN ∧ w.ir ≠ opCALL ∧ w.ir ≠ opJMP ∧
      w.ir ≠ opJEQ ∧ w.ir ≠ opJNE ∧ w.ir ≠ opLDI) ∧ decodeNonAlu w = .error .invalidInstruction) := by
  unfold decodeNonAlu
  split
  · simp [*]
  split
  · simp [*]
  split
  · simp [*]
  split
  · simp [*]
  split
  · simp [*]
  split
  · simp [*]
  split
  · simp [*]
  split
  · simp [*]
  split
  · simp [*]
  split
  · simp [*]
  rename_i h1 h2 h3 h4 h5 h6 h7 h8 h9 h10
  exact .inr (.inr (.inr (.inr (.inr (.inr (.inr (.inr (.inr (.inr
    ⟨⟨h1, h2, h3, h4, h5, h6, h7, h8, h9, h10⟩, rfl⟩)))))))))

/-- A window decodes to an instruction whose opcode is the window's and whose operands are the window's bytes. -/
theorem decode_ok_cases {w : Window} {i : Instr} (h : decode w = .ok i) :
    (w.ir = opADD ∧ i = .add w.a w.b) ∨ (w.ir = opMUL ∧ i = .mul w.a w.b) ∨ (w.ir = opCMP ∧ i = .cmp w.a w.b) ∨
    (w.ir = opHLT ∧ i = .hlt) ∨ (w.ir = opRET ∧ i = .ret) ∨ (w.ir = opPUSH ∧ i = .push w.a) ∨
    (w.ir = opPOP ∧ i = .pop w.a) ∨ (w.ir = opPRN ∧ i = .prn w.a) ∨ (w.ir = opCALL ∧ i = .call w.a) ∨
    (w.ir = opJMP ∧ i = .jmp w.a) ∨ (w.ir = opJEQ ∧ i = .jeq w.a) ∨ (w.ir = opJNE ∧ i = .jne w.a) ∨
    (w.ir = opLDI ∧ i = .ldi w.a w.b) := by
  cases ha : isAlu w.ir with
  | true =>
    rw [decode_alu ha] at h
    rcases decodeAlu_cases w with ⟨e, d⟩ | ⟨e, d⟩ | ⟨e, d⟩ | ⟨_, _, _, d⟩ <;> rw [d] at h
    · exact .inl ⟨e, (Except.ok.inj h).symm⟩
    · exact .inr (.inl ⟨e, (Except.ok.inj h).symm⟩)
    · exact .inr (.inr (.inl ⟨e, (Except.ok.inj h).symm⟩))
    · cases h
  | false =>
    rw [decode_nonAlu ha] at h
    refine .inr (.inr (.inr ?_))
    rcases decodeNonAlu_cases w with ⟨e, d⟩ | ⟨e, d⟩ | ⟨e, d⟩ | ⟨e, d⟩ | ⟨e, d⟩ | ⟨e, d⟩ | ⟨e, d⟩ | ⟨e, d⟩ | ⟨e, d⟩ |
      ⟨e, d⟩ | ⟨_, d⟩ <;> rw [d] at h
    · exact .inl ⟨e, (Except.ok.inj h).symm⟩
    · exact .inr (.inl ⟨e, (Except.ok.inj h).symm⟩)
    · exact .inr (.inr (.inl ⟨e, (Except.ok.inj h).symm⟩))
    · exact .inr (.inr (.inr (.inl ⟨e, (Except.ok.inj h).symm⟩)))
    · exact .inr (.inr (.inr (.inr (.inl ⟨e, (Except.ok.inj h).symm⟩))))
    · exact .inr (.inr (.inr (.inr (.inr (.inl ⟨e, (Except.ok.inj h).symm⟩)))))
    · exact .inr (.inr (.inr (.inr (.inr (.inr (.inl ⟨e, (Except.ok.inj h).symm⟩))))))
    · exact .inr (.inr (.inr (.inr (.inr (.inr (.inr (.inl ⟨e, (Except.ok.inj h).symm⟩)))))))
    · exact .inr (.inr (.inr (.inr (.inr (.inr (.inr (.inr (.inl ⟨e, (Except.ok.inj h).symm⟩))))))))
    · exact .inr (.inr (.inr (.inr (.inr (.inr (.inr (.inr (.inr ⟨e, (Except.ok.inj h).symm⟩))))))))
    · cases h

end Sys2Proof
end

