-- ==== Sys2Proof/Laws/Memory.lean ====
section
/-! SUPPORT. Memory: read after write, the canonical form, and loading bytes. -/

namespace Sys2Proof.Machine

/-! ### The canonical form -/

theorem Memory.wfFrom_cons {lo k : Nat} {v : Byte} {m : List Host.Cell} :
    Memory.wfFrom lo ((k, v) :: m) = true ↔
      lo ≤ k ∧ k < Config.memorySize ∧ v ≠ Config.memoryResetByte ∧ Memory.wfFrom (k + 1) m = true := by
  simp only [Memory.wfFrom, Bool.and_eq_true, decide_eq_true_eq]
  tauto

theorem Memory.wfFrom_mono {lo lo' : Nat} {m : List Host.Cell} (h : Memory.wfFrom lo m = true) (hle : lo' ≤ lo) :
    Memory.wfFrom lo' m = true := by
  cases m with
  | nil => rfl
  | cons c m =>
    obtain ⟨k, v⟩ := c
    rw [Memory.wfFrom_cons] at h ⊢
    exact ⟨hle.trans h.1, h.2⟩

/-- Below its first address a canonical memory reads the reset byte. -/
theorem Memory.read_below {lo a : Nat} {m : List Host.Cell} (h : Memory.wfFrom lo m = true) (ha : a < lo) :
    Memory.read m a = Config.memoryResetByte := by
  cases m with
  | nil => rfl
  | cons c m =>
    obtain ⟨k, v⟩ := c
    rw [Memory.wfFrom_cons] at h
    simp [Memory.read, lt_of_lt_of_le ha h.1]

theorem Memory.write_wfFrom {lo a : Nat} {v : Byte} {m : List Host.Cell} (h : Memory.wfFrom lo m = true) (hlo : lo ≤ a)
    (ha : a < Config.memorySize) : Memory.wfFrom lo (Memory.write m a v) = true := by
  induction m generalizing lo with
  | nil =>
    unfold Memory.write
    split
    · rfl
    · exact Memory.wfFrom_cons.2 ⟨hlo, ha, ‹_›, rfl⟩
  | cons c m ih =>
    obtain ⟨k, w⟩ := c
    obtain ⟨h1, h2, h3, h4⟩ := Memory.wfFrom_cons.1 h
    unfold Memory.write
    split
    · split
      · exact h
      · exact Memory.wfFrom_cons.2 ⟨hlo, ha, ‹_›, Memory.wfFrom_cons.2 ⟨by omega, h2, h3, h4⟩⟩
    · split
      · split
        · exact Memory.wfFrom_mono h4 (by omega)
        · subst a; exact Memory.wfFrom_cons.2 ⟨h1, h2, ‹_›, h4⟩
      · exact Memory.wfFrom_cons.2 ⟨h1, h2, h3, ih h4 (by omega)⟩

/-- A write in range keeps the canonical form. -/
theorem Memory.write_wf {a : Nat} {v : Byte} {m : List Host.Cell} (h : Memory.wf m = true)
    (ha : a < Config.memorySize) : Memory.wf (Memory.write m a v) = true :=
  Memory.write_wfFrom h (Nat.zero_le a) ha

/-- A canonical memory reads the reset byte past its last cell. -/
theorem Memory.read_past {lo a : Nat} {m : List Host.Cell} (h : Memory.wfFrom lo m = true)
    (ha : Config.memorySize ≤ a) : Memory.read m a = Config.memoryResetByte := by
  induction m generalizing lo with
  | nil => rfl
  | cons c m ih =>
    obtain ⟨k, v⟩ := c
    obtain ⟨_, h2, _, h4⟩ := Memory.wfFrom_cons.1 h
    have h5 : ¬ a = k := by omega
    simp [Memory.read, h5, ih h4]

/-! ### Read after write -/

theorem Memory.read_cons (k a : Nat) (w : Byte) (m : List Host.Cell) :
    Memory.read ((k, w) :: m) a = if a < k then Config.memoryResetByte else if a = k then w else Memory.read m a := rfl

/-- A canonical memory from `a` on, with `v` put at `a` in front of it unless `v` is the reset byte. -/
theorem Memory.read_insert {a : Nat} {m : List Host.Cell} (h : Memory.wfFrom (a + 1) m = true) (v : Byte) (c : Nat) :
    Memory.read (if v = Config.memoryResetByte then m else (a, v) :: m) c = if c = a then v else Memory.read m c := by
  rcases Nat.lt_trichotomy c a with hc | hc | hc
  · have h1 : Memory.read m c = Config.memoryResetByte := Memory.read_below h (by omega)
    split
    · rw [if_neg (by omega)]
    · rw [Memory.read_cons, if_pos hc, if_neg (by omega), h1]
  · subst hc
    have h1 : Memory.read m c = Config.memoryResetByte := Memory.read_below h (by omega)
    split
    · rename_i hv
      rw [if_pos rfl, h1, hv]
    · rw [Memory.read_cons, if_neg (by omega), if_pos rfl]
  · split
    · rw [if_neg (by omega)]
    · rw [Memory.read_cons, if_neg (by omega), if_neg (by omega)]

theorem Memory.read_write_from {lo a : Nat} {v : Byte} {m : List Host.Cell} (h : Memory.wfFrom lo m = true) (c : Nat) :
    Memory.read (Memory.write m a v) c = if c = a then v else Memory.read m c := by
  induction m generalizing lo with
  | nil => exact Memory.read_insert (m := []) rfl v c
  | cons d m ih =>
    obtain ⟨k, w⟩ := d
    obtain ⟨h1, h2, h3, h4⟩ := Memory.wfFrom_cons.1 h
    unfold Memory.write
    split
    · exact Memory.read_insert (Memory.wfFrom_cons.2 ⟨by omega, h2, h3, h4⟩) v c
    · split
      · subst a
        rw [Memory.read_insert h4, Memory.read_cons]
        split
        · rfl
        · split
          · exact Memory.read_below h4 (by omega)
          · rfl
      · rw [Memory.read_cons, Memory.read_cons, ih h4]
        split
        · rw [if_neg (by omega)]
        · split
          · rw [if_neg (by omega)]
          · rfl

/-- What an address reads after a write to canonical memory: the stored byte there, and the old byte elsewhere. -/
theorem Memory.read_write {m : List Host.Cell} (h : Memory.wf m = true) (a c : Nat) (v : Byte) :
    Memory.read (Memory.write m a v) c = if c = a then v else Memory.read m c :=
  Memory.read_write_from h c

/-! ### Loading bytes -/

theorem Memory.load_wf {m : List Host.Cell} (h : Memory.wf m = true) (base : Nat) (bytes : List Byte) :
    Memory.wf (Memory.load m base bytes) = true := by
  induction bytes generalizing m base with
  | nil => exact h
  | cons v vs ih =>
    unfold Memory.load
    apply ih
    split
    · exact Memory.write_wf h ‹_›
    · exact h

/-- What an address reads after bytes are loaded from `base` on. -/
theorem Memory.read_load {m : List Host.Cell} (h : Memory.wf m = true) (base : Nat) (bytes : List Byte) (c : Nat)
    (hc : c < Config.memorySize) :
    Memory.read (Memory.load m base bytes) c =
      if base ≤ c then bytes.getD (c - base) (Memory.read m c) else Memory.read m c := by
  induction bytes generalizing m base with
  | nil => simp [Memory.load]
  | cons v vs ih =>
    have hwf : Memory.wf (if base < Config.memorySize then Memory.write m base v else m) = true := by
      split
      · exact Memory.write_wf h ‹_›
      · exact h
    unfold Memory.load
    rw [ih hwf]
    rcases Nat.lt_trichotomy c base with hb | hb | hb
    · have h1 : ¬ base + 1 ≤ c := by omega
      have h2 : ¬ base ≤ c := by omega
      have h3 : ¬ c = base := by omega
      simp only [h1, h2, if_false]
      split
      · rw [Memory.read_write h, if_neg h3]
      · rfl
    · subst hb
      have h1 : ¬ c + 1 ≤ c := by omega
      simp only [h1, if_false, le_refl, if_true, Nat.sub_self, List.getD_cons_zero, if_pos hc]
      rw [Memory.read_write h, if_pos rfl]
    · have h1 : base + 1 ≤ c := by omega
      have h2 : base ≤ c := by omega
      have h3 : ¬ c = base := by omega
      have h4 : c - base = (c - (base + 1)) + 1 := by omega
      simp only [h1, h2, if_true, h4, List.getD_cons_succ]
      congr 1
      split
      · rw [Memory.read_write h, if_neg h3]
      · rfl

end Sys2Proof.Machine
end

