-- ==== Sys2Proof/Laws/State.lean ====
section
/-! SUPPORT. One lemma per field per update of State, so that no later proof unfolds a record update. -/

namespace Sys2Proof.Machine

/-! ### setMem -/

@[simp] theorem State.setMem_mem (s : State) (m : List Host.Cell) : (s.setMem m).mem = m := rfl
@[simp] theorem State.setMem_x (s : State) (m : List Host.Cell) : (s.setMem m).x = s.x := rfl
@[simp] theorem State.setMem_pc (s : State) (m : List Host.Cell) : (s.setMem m).pc = s.pc := rfl
@[simp] theorem State.setMem_flags (s : State) (m : List Host.Cell) : (s.setMem m).flags = s.flags := rfl
@[simp] theorem State.setMem_status (s : State) (m : List Host.Cell) : (s.setMem m).status = s.status := rfl
@[simp] theorem State.setMem_fault (s : State) (m : List Host.Cell) : (s.setMem m).fault = s.fault := rfl
@[simp] theorem State.setMem_count (s : State) (m : List Host.Cell) : (s.setMem m).count = s.count := rfl
@[simp] theorem State.setMem_out (s : State) (m : List Host.Cell) : (s.setMem m).out = s.out := rfl
@[simp] theorem State.setMem_stepLimit (s : State) (m : List Host.Cell) : (s.setMem m).stepLimit = s.stepLimit := rfl
@[simp] theorem State.setMem_reg (s : State) (m : List Host.Cell) (q : Fin Config.registerCount) :
    (s.setMem m).reg q = s.reg q := rfl
@[simp] theorem State.setMem_sp (s : State) (m : List Host.Cell) : (s.setMem m).sp = s.sp := rfl
@[simp] theorem State.setMem_cell (s : State) (m : List Host.Cell) (c : Nat) : (s.setMem m).cell c = Memory.read m c := rfl

/-! ### setReg -/

@[simp] theorem State.setReg_mem (s : State) (r : Fin Config.registerCount) (v : Byte) : (s.setReg r v).mem = s.mem := rfl
@[simp] theorem State.setReg_x (s : State) (r : Fin Config.registerCount) (v : Byte) : (s.setReg r v).x = s.x.set r v := rfl
@[simp] theorem State.setReg_pc (s : State) (r : Fin Config.registerCount) (v : Byte) : (s.setReg r v).pc = s.pc := rfl
@[simp] theorem State.setReg_flags (s : State) (r : Fin Config.registerCount) (v : Byte) : (s.setReg r v).flags = s.flags := rfl
@[simp] theorem State.setReg_status (s : State) (r : Fin Config.registerCount) (v : Byte) : (s.setReg r v).status = s.status := rfl
@[simp] theorem State.setReg_fault (s : State) (r : Fin Config.registerCount) (v : Byte) : (s.setReg r v).fault = s.fault := rfl
@[simp] theorem State.setReg_count (s : State) (r : Fin Config.registerCount) (v : Byte) : (s.setReg r v).count = s.count := rfl
@[simp] theorem State.setReg_out (s : State) (r : Fin Config.registerCount) (v : Byte) : (s.setReg r v).out = s.out := rfl
@[simp] theorem State.setReg_stepLimit (s : State) (r : Fin Config.registerCount) (v : Byte) : (s.setReg r v).stepLimit = s.stepLimit := rfl
@[simp] theorem State.setReg_cell (s : State) (r : Fin Config.registerCount) (v : Byte) (c : Nat) : (s.setReg r v).cell c = s.cell c := rfl

/-! ### setSp -/

@[simp] theorem State.setSp_mem (s : State) (v : Byte) : (s.setSp v).mem = s.mem := rfl
@[simp] theorem State.setSp_x (s : State) (v : Byte) : (s.setSp v).x = s.x.set Config.spIndex v := rfl
@[simp] theorem State.setSp_pc (s : State) (v : Byte) : (s.setSp v).pc = s.pc := rfl
@[simp] theorem State.setSp_flags (s : State) (v : Byte) : (s.setSp v).flags = s.flags := rfl
@[simp] theorem State.setSp_status (s : State) (v : Byte) : (s.setSp v).status = s.status := rfl
@[simp] theorem State.setSp_fault (s : State) (v : Byte) : (s.setSp v).fault = s.fault := rfl
@[simp] theorem State.setSp_count (s : State) (v : Byte) : (s.setSp v).count = s.count := rfl
@[simp] theorem State.setSp_out (s : State) (v : Byte) : (s.setSp v).out = s.out := rfl
@[simp] theorem State.setSp_stepLimit (s : State) (v : Byte) : (s.setSp v).stepLimit = s.stepLimit := rfl
@[simp] theorem State.setSp_cell (s : State) (v : Byte) (c : Nat) : (s.setSp v).cell c = s.cell c := rfl

/-! ### setPc -/

@[simp] theorem State.setPc_mem (s : State) (p : PcWord) : (s.setPc p).mem = s.mem := rfl
@[simp] theorem State.setPc_x (s : State) (p : PcWord) : (s.setPc p).x = s.x := rfl
@[simp] theorem State.setPc_pc (s : State) (p : PcWord) : (s.setPc p).pc = p := rfl
@[simp] theorem State.setPc_flags (s : State) (p : PcWord) : (s.setPc p).flags = s.flags := rfl
@[simp] theorem State.setPc_status (s : State) (p : PcWord) : (s.setPc p).status = s.status := rfl
@[simp] theorem State.setPc_fault (s : State) (p : PcWord) : (s.setPc p).fault = s.fault := rfl
@[simp] theorem State.setPc_count (s : State) (p : PcWord) : (s.setPc p).count = s.count := rfl
@[simp] theorem State.setPc_out (s : State) (p : PcWord) : (s.setPc p).out = s.out := rfl
@[simp] theorem State.setPc_stepLimit (s : State) (p : PcWord) : (s.setPc p).stepLimit = s.stepLimit := rfl
@[simp] theorem State.setPc_reg (s : State) (p : PcWord) (q : Fin Config.registerCount) : (s.setPc p).reg q = s.reg q := rfl
@[simp] theorem State.setPc_sp (s : State) (p : PcWord) : (s.setPc p).sp = s.sp := rfl
@[simp] theorem State.setPc_cell (s : State) (p : PcWord) (c : Nat) : (s.setPc p).cell c = s.cell c := rfl

/-! ### setFlags -/

@[simp] theorem State.setFlags_mem (s : State) (v : Byte) : (s.setFlags v).mem = s.mem := rfl
@[simp] theorem State.setFlags_x (s : State) (v : Byte) : (s.setFlags v).x = s.x := rfl
@[simp] theorem State.setFlags_pc (s : State) (v : Byte) : (s.setFlags v).pc = s.pc := rfl
@[simp] theorem State.setFlags_flags (s : State) (v : Byte) : (s.setFlags v).flags = v := rfl
@[simp] theorem State.setFlags_status (s : State) (v : Byte) : (s.setFlags v).status = s.status := rfl
@[simp] theorem State.setFlags_fault (s : State) (v : Byte) : (s.setFlags v).fault = s.fault := rfl
@[simp] theorem State.setFlags_count (s : State) (v : Byte) : (s.setFlags v).count = s.count := rfl
@[simp] theorem State.setFlags_out (s : State) (v : Byte) : (s.setFlags v).out = s.out := rfl
@[simp] theorem State.setFlags_stepLimit (s : State) (v : Byte) : (s.setFlags v).stepLimit = s.stepLimit := rfl
@[simp] theorem State.setFlags_reg (s : State) (v : Byte) (q : Fin Config.registerCount) : (s.setFlags v).reg q = s.reg q := rfl
@[simp] theorem State.setFlags_sp (s : State) (v : Byte) : (s.setFlags v).sp = s.sp := rfl
@[simp] theorem State.setFlags_cell (s : State) (v : Byte) (c : Nat) : (s.setFlags v).cell c = s.cell c := rfl

/-! ### halt -/

@[simp] theorem State.halt_mem (s : State) : (s.halt).mem = s.mem := rfl
@[simp] theorem State.halt_x (s : State) : (s.halt).x = s.x := rfl
@[simp] theorem State.halt_pc (s : State) : (s.halt).pc = s.pc := rfl
@[simp] theorem State.halt_flags (s : State) : (s.halt).flags = s.flags := rfl
@[simp] theorem State.halt_status (s : State) : (s.halt).status = .halted := rfl
@[simp] theorem State.halt_fault (s : State) : (s.halt).fault = s.fault := rfl
@[simp] theorem State.halt_count (s : State) : (s.halt).count = s.count := rfl
@[simp] theorem State.halt_out (s : State) : (s.halt).out = s.out := rfl
@[simp] theorem State.halt_stepLimit (s : State) : (s.halt).stepLimit = s.stepLimit := rfl
@[simp] theorem State.halt_reg (s : State) (q : Fin Config.registerCount) : (s.halt).reg q = s.reg q := rfl
@[simp] theorem State.halt_sp (s : State) : (s.halt).sp = s.sp := rfl
@[simp] theorem State.halt_cell (s : State) (c : Nat) : (s.halt).cell c = s.cell c := rfl

/-! ### emit -/

@[simp] theorem State.emit_mem (s : State) (v : Byte) : (s.emit v).mem = s.mem := rfl
@[simp] theorem State.emit_x (s : State) (v : Byte) : (s.emit v).x = s.x := rfl
@[simp] theorem State.emit_pc (s : State) (v : Byte) : (s.emit v).pc = s.pc := rfl
@[simp] theorem State.emit_flags (s : State) (v : Byte) : (s.emit v).flags = s.flags := rfl
@[simp] theorem State.emit_status (s : State) (v : Byte) : (s.emit v).status = s.status := rfl
@[simp] theorem State.emit_fault (s : State) (v : Byte) : (s.emit v).fault = s.fault := rfl
@[simp] theorem State.emit_count (s : State) (v : Byte) : (s.emit v).count = s.count := rfl
@[simp] theorem State.emit_out (s : State) (v : Byte) : (s.emit v).out = s.out ++ [v] := rfl
@[simp] theorem State.emit_stepLimit (s : State) (v : Byte) : (s.emit v).stepLimit = s.stepLimit := rfl
@[simp] theorem State.emit_reg (s : State) (v : Byte) (q : Fin Config.registerCount) : (s.emit v).reg q = s.reg q := rfl
@[simp] theorem State.emit_sp (s : State) (v : Byte) : (s.emit v).sp = s.sp := rfl
@[simp] theorem State.emit_cell (s : State) (v : Byte) (c : Nat) : (s.emit v).cell c = s.cell c := rfl

/-! ### tick -/

@[simp] theorem State.tick_mem (s : State) : (s.tick).mem = s.mem := rfl
@[simp] theorem State.tick_x (s : State) : (s.tick).x = s.x := rfl
@[simp] theorem State.tick_pc (s : State) : (s.tick).pc = s.pc := rfl
@[simp] theorem State.tick_flags (s : State) : (s.tick).flags = s.flags := rfl
@[simp] theorem State.tick_status (s : State) : (s.tick).status = s.status := rfl
@[simp] theorem State.tick_fault (s : State) : (s.tick).fault = s.fault := rfl
@[simp] theorem State.tick_count (s : State) : (s.tick).count = s.count + 1 := rfl
@[simp] theorem State.tick_out (s : State) : (s.tick).out = s.out := rfl
@[simp] theorem State.tick_stepLimit (s : State) : (s.tick).stepLimit = s.stepLimit := rfl
@[simp] theorem State.tick_reg (s : State) (q : Fin Config.registerCount) : (s.tick).reg q = s.reg q := rfl
@[simp] theorem State.tick_sp (s : State) : (s.tick).sp = s.sp := rfl
@[simp] theorem State.tick_cell (s : State) (c : Nat) : (s.tick).cell c = s.cell c := rfl

/-! ### decSp -/

@[simp] theorem State.decSp_mem (s : State) : s.decSp.mem = s.mem := rfl
@[simp] theorem State.decSp_pc (s : State) : s.decSp.pc = s.pc := rfl
@[simp] theorem State.decSp_flags (s : State) : s.decSp.flags = s.flags := rfl
@[simp] theorem State.decSp_status (s : State) : s.decSp.status = s.status := rfl
@[simp] theorem State.decSp_fault (s : State) : s.decSp.fault = s.fault := rfl
@[simp] theorem State.decSp_count (s : State) : s.decSp.count = s.count := rfl
@[simp] theorem State.decSp_out (s : State) : s.decSp.out = s.out := rfl
@[simp] theorem State.decSp_stepLimit (s : State) : s.decSp.stepLimit = s.stepLimit := rfl
@[simp] theorem State.decSp_cell (s : State) (c : Nat) : s.decSp.cell c = s.cell c := rfl

/-! ### incSp -/

@[simp] theorem State.incSp_mem (s : State) : s.incSp.mem = s.mem := rfl
@[simp] theorem State.incSp_pc (s : State) : s.incSp.pc = s.pc := rfl
@[simp] theorem State.incSp_flags (s : State) : s.incSp.flags = s.flags := rfl
@[simp] theorem State.incSp_status (s : State) : s.incSp.status = s.status := rfl
@[simp] theorem State.incSp_fault (s : State) : s.incSp.fault = s.fault := rfl
@[simp] theorem State.incSp_count (s : State) : s.incSp.count = s.count := rfl
@[simp] theorem State.incSp_out (s : State) : s.incSp.out = s.out := rfl
@[simp] theorem State.incSp_stepLimit (s : State) : s.incSp.stepLimit = s.stepLimit := rfl
@[simp] theorem State.incSp_cell (s : State) (c : Nat) : s.incSp.cell c = s.cell c := rfl

/-! ### raiseFault -/

@[simp] theorem raiseFault_mem (k : Raise) (s : State) : (raiseFault k s).mem = s.mem := rfl
@[simp] theorem raiseFault_x (k : Raise) (s : State) : (raiseFault k s).x = s.x := rfl
@[simp] theorem raiseFault_pc (k : Raise) (s : State) : (raiseFault k s).pc = s.pc := rfl
@[simp] theorem raiseFault_flags (k : Raise) (s : State) : (raiseFault k s).flags = s.flags := rfl
@[simp] theorem raiseFault_status (k : Raise) (s : State) : (raiseFault k s).status = .faulted k.kind := rfl
@[simp] theorem raiseFault_fault (k : Raise) (s : State) : (raiseFault k s).fault = k.record s.pc s.count := rfl
@[simp] theorem raiseFault_count (k : Raise) (s : State) : (raiseFault k s).count = s.count := rfl
@[simp] theorem raiseFault_out (k : Raise) (s : State) : (raiseFault k s).out = s.out := rfl
@[simp] theorem raiseFault_stepLimit (k : Raise) (s : State) : (raiseFault k s).stepLimit = s.stepLimit := rfl
@[simp] theorem raiseFault_reg (k : Raise) (s : State) (q : Fin Config.registerCount) : (raiseFault k s).reg q = s.reg q := rfl
@[simp] theorem raiseFault_sp (k : Raise) (s : State) : (raiseFault k s).sp = s.sp := rfl
@[simp] theorem raiseFault_cell (k : Raise) (s : State) (c : Nat) : (raiseFault k s).cell c = s.cell c := rfl

/-! ### completeCycle -/

@[simp] theorem completeCycle_mem (ir : Byte) (p : PcWord) (s : State) : (completeCycle ir p s).mem = s.mem := by
  unfold completeCycle; split <;> rfl
@[simp] theorem completeCycle_x (ir : Byte) (p : PcWord) (s : State) : (completeCycle ir p s).x = s.x := by
  unfold completeCycle; split <;> rfl
@[simp] theorem completeCycle_flags (ir : Byte) (p : PcWord) (s : State) : (completeCycle ir p s).flags = s.flags := by
  unfold completeCycle; split <;> rfl
@[simp] theorem completeCycle_status (ir : Byte) (p : PcWord) (s : State) : (completeCycle ir p s).status = s.status := by
  unfold completeCycle; split <;> rfl
@[simp] theorem completeCycle_fault (ir : Byte) (p : PcWord) (s : State) : (completeCycle ir p s).fault = s.fault := by
  unfold completeCycle; split <;> rfl
@[simp] theorem completeCycle_count (ir : Byte) (p : PcWord) (s : State) : (completeCycle ir p s).count = s.count + 1 := by
  unfold completeCycle; split <;> rfl
@[simp] theorem completeCycle_out (ir : Byte) (p : PcWord) (s : State) : (completeCycle ir p s).out = s.out := by
  unfold completeCycle; split <;> rfl
@[simp] theorem completeCycle_stepLimit (ir : Byte) (p : PcWord) (s : State) : (completeCycle ir p s).stepLimit = s.stepLimit := by
  unfold completeCycle; split <;> rfl
@[simp] theorem completeCycle_reg (ir : Byte) (p : PcWord) (s : State) (q : Fin Config.registerCount) :
    (completeCycle ir p s).reg q = s.reg q := by
  unfold completeCycle; split <;> rfl
@[simp] theorem completeCycle_sp (ir : Byte) (p : PcWord) (s : State) : (completeCycle ir p s).sp = s.sp :=
  completeCycle_reg ir p s _
@[simp] theorem completeCycle_cell (ir : Byte) (p : PcWord) (s : State) (c : Nat) :
    (completeCycle ir p s).cell c = s.cell c := by
  unfold completeCycle; split <;> rfl

/-- The loop advances pc exactly when sets_pc is 0. -/
theorem completeCycle_pc (ir : Byte) (p : PcWord) (s : State) :
    (completeCycle ir p s).pc = if setsPc ir then s.pc else pcPlus p (instrLength ir) := by
  unfold completeCycle; split <;> rfl

/-! ### Registers -/

@[simp] theorem State.reg_setReg_same (s : State) (r : Fin Config.registerCount) (v : Byte) :
    (s.setReg r v).reg r = v := by
  simp [State.reg, State.setReg]

theorem State.reg_setReg_other (s : State) {r q : Fin Config.registerCount} (v : Byte) (h : q ≠ r) :
    (s.setReg r v).reg q = s.reg q := by
  have : (r : Nat) ≠ q := fun e => h (Fin.ext e.symm)
  simp [State.reg, State.setReg, this]

/-- What a register reads after a register write. -/
theorem State.reg_setReg (s : State) (r q : Fin Config.registerCount) (v : Byte) :
    (s.setReg r v).reg q = if q = r then v else s.reg q := by
  by_cases h : q = r
  · subst h; simp
  · simp [h, State.reg_setReg_other]

@[simp] theorem State.sp_setSp (s : State) (v : Byte) : (s.setSp v).sp = v := State.reg_setReg_same _ _ _

@[simp] theorem State.sp_decSp (s : State) : s.decSp.sp = decByte s.sp := State.sp_setSp _ _

@[simp] theorem State.sp_incSp (s : State) : s.incSp.sp = incByte s.sp := State.sp_setSp _ _

theorem State.reg_decSp_other (s : State) {q : Fin Config.registerCount} (h : q ≠ Config.spIndex) :
    s.decSp.reg q = s.reg q := State.reg_setReg_other s _ h

theorem State.reg_incSp_other (s : State) {q : Fin Config.registerCount} (h : q ≠ Config.spIndex) :
    s.incSp.reg q = s.reg q := State.reg_setReg_other s _ h

/-- Two register files that read the same are the same. -/
theorem State.x_ext {s t : State} (h : ∀ r, s.reg r = t.reg r) : s.x = t.x := by
  apply Vector.ext
  intro i hi
  exact h ⟨i, hi⟩

end Sys2Proof.Machine
end

