-- ==== Sys2Proof/Laws/Ops.lean ====
section
/-! SUPPORT. What each shared operation can do, once: arithmetic, the bounds-checked accesses, the operand check and the
end of a cycle. -/

namespace Sys2Proof.Machine

/-! ### Arithmetic -/

@[simp] theorem wrapByte_toNat (n : Nat) : (wrapByte n).toNat = n % 256 := by
  simp [wrapByte]

theorem decByte_toNat (v : Byte) : (decByte v).toNat = (v.toNat + 255) % 256 := wrapByte_toNat _

theorem incByte_toNat (v : Byte) : (incByte v).toNat = (v.toNat + 1) % 256 := wrapByte_toNat _

/-- A decrement and an increment undo each other. -/
theorem incByte_decByte (v : Byte) : incByte (decByte v) = v := by
  apply BitVec.eq_of_toNat_eq
  rw [incByte_toNat, decByte_toNat]
  have := v.isLt
  omega

theorem pcPlus_toNat {p : PcWord} {k : Nat} (h : p.toNat + k < 512) : (pcPlus p k).toNat = p.toNat + k := by
  simp [pcPlus]
  omega

@[simp] theorem pcOfByte_toNat (v : Byte) : (pcOfByte v).toNat = v.toNat := by
  have := v.isLt
  simp only [pcOfByte, BitVec.toNat_ofNat]
  omega

theorem returnByte_toNat {p : PcWord} (h : p.toNat ≤ 253) : (returnByte p).toNat = p.toNat + 2 := by
  rw [returnByte, wrapByte_toNat]
  omega

/-- A push stores at (sp - 1) mod 256. -/
theorem pushAddress_eq (s : State) : pushAddress s = (s.sp.toNat + 255) % 256 := by
  rw [pushAddress, State.sp_decSp, decByte_toNat]

/-! ### The bounds-checked accesses (20_memory.md R51) -/

theorem memRead_inRange (s : State) {a : Nat} (h : a < Config.memorySize) : memRead s a = .ok (s.cell a) := if_pos h

theorem memRead_outOfRange (s : State) {a : Nat} (h : Config.memorySize ≤ a) :
    memRead s a = .error (.addressOutOfRange a) := if_neg (Nat.not_lt.2 h)

theorem memWrite_inRange (s : State) {a : Nat} (v : Byte) (h : a < Config.memorySize) :
    memWrite s a v = .ok (s.setMem (Memory.write s.mem a v)) := if_pos h

theorem memWrite_outOfRange (s : State) {a : Nat} (v : Byte) (h : Config.memorySize ≤ a) :
    memWrite s a v = .error (.addressOutOfRange a) := if_neg (Nat.not_lt.2 h)

/-- A data access at an 8-bit address is in range (20_memory.md R53). -/
theorem byte_inRange (v : Byte) : v.toNat < Config.memorySize := v.isLt

/-! ### The operand check -/

theorem checkRegister_valid {ir r : Byte} {q : Fin Config.registerCount} (h : r.toNat = q) :
    checkRegister ir r = .ok q := by
  have hlt : r.toNat < Config.registerCount := h ▸ q.isLt
  simp only [checkRegister, hlt, dite_true]
  exact congrArg _ (Fin.ext h)

theorem checkRegister_invalid {ir r : Byte} (h : Config.registerCount ≤ r.toNat) :
    checkRegister ir r = .error (.invalidRegister ir r) := dif_neg (Nat.not_lt.2 h)

/-- The two outcomes of the operand check. -/
theorem checkRegister_cases (ir r : Byte) :
    (∃ q : Fin Config.registerCount, r.toNat = q ∧ checkRegister ir r = .ok q) ∨
      (Config.registerCount ≤ r.toNat ∧ checkRegister ir r = .error (.invalidRegister ir r)) := by
  by_cases h : r.toNat < Config.registerCount
  · exact .inl ⟨⟨r.toNat, h⟩, rfl, checkRegister_valid rfl⟩
  · exact .inr ⟨Nat.not_lt.1 h, checkRegister_invalid (Nat.not_lt.1 h)⟩

/-! ### The end of a cycle -/

/-- Where the loop advances pc, it does so by the opcode's length, without a wrap. -/
theorem completeCycle_advances {ir : Byte} {n : Nat} (h : setsPc ir = false) (hn : instrLength ir = n) {p : PcWord}
    (hp : p.toNat + n < 512) (s : State) : (completeCycle ir p s).pc.toNat = p.toNat + n := by
  rw [completeCycle_pc, h, hn]
  exact pcPlus_toNat hp

theorem finishCycle_ok (ir : Byte) (s t : State) : finishCycle ir s (.ok t) = .next (completeCycle ir s.pc t) := rfl

theorem finishCycle_error (ir : Byte) (s : State) (k : Raise) :
    finishCycle ir s (.error k) = .next (raiseFault k s) := rfl

/-! ### The operand forms -/

theorem runF1R_valid {ir a : Byte} {ra : Fin Config.registerCount} (ha : a.toNat = ra)
    (h : Fin Config.registerCount → State → Except Raise State) (s : State) :
    runF1R ir a h s = finishCycle ir s (h ra s) := by
  simp only [runF1R, checkRegister_valid ha]; rfl

theorem runF1R_invalid {ir a : Byte} (ha : Config.registerCount ≤ a.toNat)
    (h : Fin Config.registerCount → State → Except Raise State) (s : State) :
    runF1R ir a h s = .next (raiseFault (.invalidRegister ir a) s) := by
  simp only [runF1R, checkRegister_invalid ha]; rfl

theorem runF2RI_valid {ir a : Byte} {ra : Fin Config.registerCount} (ha : a.toNat = ra) (imm : Byte)
    (h : Fin Config.registerCount → Byte → State → Except Raise State) (s : State) :
    runF2RI ir a imm h s = finishCycle ir s (h ra imm s) := by
  simp only [runF2RI, checkRegister_valid ha]; rfl

theorem runF2RI_invalid {ir a : Byte} (ha : Config.registerCount ≤ a.toNat) (imm : Byte)
    (h : Fin Config.registerCount → Byte → State → Except Raise State) (s : State) :
    runF2RI ir a imm h s = .next (raiseFault (.invalidRegister ir a) s) := by
  simp only [runF2RI, checkRegister_invalid ha]; rfl

theorem runF2RR_valid {ir a b : Byte} {ra rb : Fin Config.registerCount} (ha : a.toNat = ra) (hb : b.toNat = rb)
    (h : Fin Config.registerCount → Fin Config.registerCount → State → Except Raise State) (s : State) :
    runF2RR ir a b h s = finishCycle ir s (h ra rb s) := by
  simp only [runF2RR, checkRegister_valid ha, checkRegister_valid hb]; rfl

theorem runF2RR_invalid_a {ir a : Byte} (ha : Config.registerCount ≤ a.toNat) (b : Byte)
    (h : Fin Config.registerCount → Fin Config.registerCount → State → Except Raise State) (s : State) :
    runF2RR ir a b h s = .next (raiseFault (.invalidRegister ir a) s) := by
  simp only [runF2RR, checkRegister_invalid ha]; rfl

theorem runF2RR_invalid_b {ir a b : Byte} {ra : Fin Config.registerCount} (ha : a.toNat = ra)
    (hb : Config.registerCount ≤ b.toNat)
    (h : Fin Config.registerCount → Fin Config.registerCount → State → Except Raise State) (s : State) :
    runF2RR ir a b h s = .next (raiseFault (.invalidRegister ir b) s) := by
  simp only [runF2RR, checkRegister_valid ha, checkRegister_invalid hb]; rfl

end Sys2Proof.Machine
end

