-- ==== Sys2Proof/Laws/Exec.lean ====
section
/-! SUPPORT. What `exec` can do, once: an instruction has its effect and its cycle completes, or its first register
operand outside [0,8) is raised and nothing else changes. -/

namespace Sys2Proof.Machine

/-! ### The handlers that reach Memory always complete (20_memory.md R53) -/

theorem handlePush_eq (ra : Fin Config.registerCount) (s : State) :
    handlePush ra s = .ok (s.decSp.setMem (Memory.write s.mem (pushAddress s) (s.decSp.reg ra))) :=
  memWrite_inRange _ _ (byte_inRange _)

theorem handlePop_eq (ra : Fin Config.registerCount) (s : State) :
    handlePop ra s = .ok (s.setReg ra (s.cell s.sp.toNat)).incSp := by
  simp only [handlePop, memRead_inRange s (byte_inRange s.sp)]; rfl

theorem handleCall_eq (ra : Fin Config.registerCount) (s : State) :
    handleCall ra s = .ok ((s.decSp.setMem (Memory.write s.mem (pushAddress s) (returnByte s.pc))).setPc
      (pcOfByte (s.decSp.reg ra))) := by
  simp only [handleCall, memWrite_inRange s.decSp _ (byte_inRange s.decSp.sp)]; rfl

theorem handleRet_eq (s : State) : handleRet s = .ok (s.setPc (pcOfByte (s.cell s.sp.toNat))).incSp := by
  simp only [handleRet, memRead_inRange s (byte_inRange s.sp)]; rfl

/-! ### The effect of each instruction -/

/-- `Effect s i t`: the handler of `i`, whose register operands exist, takes `s` to `t`; the end of the cycle is not in
it. -/
inductive Effect (s : State) : Instr → State → Prop where
  | hlt : Effect s .hlt s.halt
  | ldi {a imm : Byte} {ra : Fin Config.registerCount} (ha : a.toNat = ra) : Effect s (.ldi a imm) (s.setReg ra imm)
  | prn {a : Byte} {ra : Fin Config.registerCount} (ha : a.toNat = ra) : Effect s (.prn a) (s.emit (s.reg ra))
  | add {a b : Byte} {ra rb : Fin Config.registerCount} (ha : a.toNat = ra) (hb : b.toNat = rb) :
      Effect s (.add a b) (s.setReg ra (wrapByte ((s.reg ra).toNat + (s.reg rb).toNat)))
  | mul {a b : Byte} {ra rb : Fin Config.registerCount} (ha : a.toNat = ra) (hb : b.toNat = rb) :
      Effect s (.mul a b) (s.setReg ra (wrapByte ((s.reg ra).toNat * (s.reg rb).toNat)))
  | push {a : Byte} {ra : Fin Config.registerCount} (ha : a.toNat = ra) :
      Effect s (.push a) (s.decSp.setMem (Memory.write s.mem (pushAddress s) (s.decSp.reg ra)))
  | pop {a : Byte} {ra : Fin Config.registerCount} (ha : a.toNat = ra) :
      Effect s (.pop a) (s.setReg ra (s.cell s.sp.toNat)).incSp
  | ret : Effect s .ret (s.setPc (pcOfByte (s.cell s.sp.toNat))).incSp
  | call {a : Byte} {ra : Fin Config.registerCount} (ha : a.toNat = ra) :
      Effect s (.call a) ((s.decSp.setMem (Memory.write s.mem (pushAddress s) (returnByte s.pc))).setPc
        (pcOfByte (s.decSp.reg ra)))
  | cmp {a b : Byte} {ra rb : Fin Config.registerCount} (ha : a.toNat = ra) (hb : b.toNat = rb) :
      Effect s (.cmp a b) (s.setFlags (compareFlags (s.reg ra) (s.reg rb)))
  | jmp {a : Byte} {ra : Fin Config.registerCount} (ha : a.toNat = ra) :
      Effect s (.jmp a) (s.setPc (pcOfByte (s.reg ra)))
  | jeq {a : Byte} {ra : Fin Config.registerCount} (ha : a.toNat = ra) :
      Effect s (.jeq a) (s.setPc (if flagEq s.flags then pcOfByte (s.reg ra) else pcPlus s.pc 2))
  | jne {a : Byte} {ra : Fin Config.registerCount} (ha : a.toNat = ra) :
      Effect s (.jne a) (s.setPc (if flagEq s.flags then pcPlus s.pc 2 else pcOfByte (s.reg ra)))

/-- An instruction that has an effect has it, and its cycle completes. -/
theorem exec_of_effect {s t : State} {i : Instr} (h : Effect s i t) :
    exec i s = .next (completeCycle (opcodeOf i) s.pc t) := by
  cases h with
  | hlt => rfl
  | ret => exact congrArg (finishCycle opRET s) (handleRet_eq s)
  | ldi ha => exact runF2RI_valid ha _ _ s
  | prn ha => exact runF1R_valid ha _ s
  | add ha hb => exact runF2RR_valid ha hb _ s
  | mul ha hb => exact runF2RR_valid ha hb _ s
  | cmp ha hb => exact runF2RR_valid ha hb _ s
  | push ha => exact (runF1R_valid ha _ s).trans (congrArg (finishCycle opPUSH s) (handlePush_eq _ s))
  | pop ha => exact (runF1R_valid ha _ s).trans (congrArg (finishCycle opPOP s) (handlePop_eq _ s))
  | call ha => exact (runF1R_valid ha _ s).trans (congrArg (finishCycle opCALL s) (handleCall_eq _ s))
  | jmp ha => exact runF1R_valid ha _ s
  | jeq ha => exact runF1R_valid ha _ s
  | jne ha => exact runF1R_valid ha _ s

/-! ### Which operand is raised -/

/-- The first register operand outside [0,8), in the order `a`, `b`. -/
def firstInvalid (i : Instr) : Option Byte :=
  i.registerOperands.find? fun r => decide (Config.registerCount ≤ r.toNat)

theorem wellFormed_iff_firstInvalid (i : Instr) : i.wellFormed = true ↔ firstInvalid i = none := by
  simp [Instr.wellFormed, firstInvalid]

/-- Register operands that exist have register indices. -/
theorem exists_register {r : Byte} (h : ¬ Config.registerCount ≤ r.toNat) :
    ∃ q : Fin Config.registerCount, r.toNat = q := ⟨⟨r.toNat, Nat.not_le.1 h⟩, rfl⟩

/-- A well-formed instruction has an effect. -/
theorem effect_of_wellFormed {i : Instr} (h : i.wellFormed = true) (s : State) : ∃ t, Effect s i t := by
  simp only [Instr.wellFormed, List.all_eq_true, decide_eq_true_eq] at h
  have reg : ∀ r ∈ i.registerOperands, ∃ q : Fin Config.registerCount, r.toNat = q :=
    fun r hr => exists_register (Nat.not_le.2 (h r hr))
  cases i with
  | hlt => exact ⟨_, .hlt⟩
  | ret => exact ⟨_, .ret⟩
  | ldi a imm => obtain ⟨q, hq⟩ := reg a (by simp [Instr.registerOperands]); exact ⟨_, .ldi hq⟩
  | prn a => obtain ⟨q, hq⟩ := reg a (by simp [Instr.registerOperands]); exact ⟨_, .prn hq⟩
  | push a => obtain ⟨q, hq⟩ := reg a (by simp [Instr.registerOperands]); exact ⟨_, .push hq⟩
  | pop a => obtain ⟨q, hq⟩ := reg a (by simp [Instr.registerOperands]); exact ⟨_, .pop hq⟩
  | call a => obtain ⟨q, hq⟩ := reg a (by simp [Instr.registerOperands]); exact ⟨_, .call hq⟩
  | jmp a => obtain ⟨q, hq⟩ := reg a (by simp [Instr.registerOperands]); exact ⟨_, .jmp hq⟩
  | jeq a => obtain ⟨q, hq⟩ := reg a (by simp [Instr.registerOperands]); exact ⟨_, .jeq hq⟩
  | jne a => obtain ⟨q, hq⟩ := reg a (by simp [Instr.registerOperands]); exact ⟨_, .jne hq⟩
  | add a b =>
    obtain ⟨q, hq⟩ := reg a (by simp [Instr.registerOperands])
    obtain ⟨q', hq'⟩ := reg b (by simp [Instr.registerOperands])
    exact ⟨_, .add hq hq'⟩
  | mul a b =>
    obtain ⟨q, hq⟩ := reg a (by simp [Instr.registerOperands])
    obtain ⟨q', hq'⟩ := reg b (by simp [Instr.registerOperands])
    exact ⟨_, .mul hq hq'⟩
  | cmp a b =>
    obtain ⟨q, hq⟩ := reg a (by simp [Instr.registerOperands])
    obtain ⟨q', hq'⟩ := reg b (by simp [Instr.registerOperands])
    exact ⟨_, .cmp hq hq'⟩

theorem firstInvalid_one {r : Byte} {i : Instr} (a : Byte) (hi : i.registerOperands = [a])
    (h : firstInvalid i = some r) : Config.registerCount ≤ a.toNat ∧ r = a := by
  by_cases ha : Config.registerCount ≤ a.toNat
  · simp [firstInvalid, hi, ha] at h; exact ⟨ha, h.symm⟩
  · simp [firstInvalid, hi, ha] at h

theorem runF2RR_firstInvalid {ir a b r : Byte} {i : Instr} (hi : i.registerOperands = [a, b])
    (h : firstInvalid i = some r) (handler : Fin Config.registerCount → Fin Config.registerCount → State → Except Raise State)
    (s : State) : runF2RR ir a b handler s = .next (raiseFault (.invalidRegister ir r) s) := by
  by_cases ha : Config.registerCount ≤ a.toNat
  · simp [firstInvalid, hi, ha] at h
    exact h ▸ runF2RR_invalid_a ha b handler s
  · obtain ⟨q, hq⟩ := exists_register ha
    by_cases hb : Config.registerCount ≤ b.toNat
    · simp [firstInvalid, hi, ha, hb] at h
      exact h ▸ runF2RR_invalid_b hq hb handler s
    · simp [firstInvalid, hi, ha, hb] at h

/-- An ill-formed instruction raises its first invalid operand, and nothing else changes. -/
theorem exec_of_firstInvalid {i : Instr} {r : Byte} (h : firstInvalid i = some r) (s : State) :
    exec i s = .next (raiseFault (.invalidRegister (opcodeOf i) r) s) := by
  cases i with
  | hlt => cases h
  | ret => cases h
  | ldi a imm => obtain ⟨ha, rfl⟩ := firstInvalid_one a rfl h; exact runF2RI_invalid ha _ _ s
  | prn a => obtain ⟨ha, rfl⟩ := firstInvalid_one a rfl h; exact runF1R_invalid ha _ s
  | push a => obtain ⟨ha, rfl⟩ := firstInvalid_one a rfl h; exact runF1R_invalid ha _ s
  | pop a => obtain ⟨ha, rfl⟩ := firstInvalid_one a rfl h; exact runF1R_invalid ha _ s
  | call a => obtain ⟨ha, rfl⟩ := firstInvalid_one a rfl h; exact runF1R_invalid ha _ s
  | jmp a => obtain ⟨ha, rfl⟩ := firstInvalid_one a rfl h; exact runF1R_invalid ha _ s
  | jeq a => obtain ⟨ha, rfl⟩ := firstInvalid_one a rfl h; exact runF1R_invalid ha _ s
  | jne a => obtain ⟨ha, rfl⟩ := firstInvalid_one a rfl h; exact runF1R_invalid ha _ s
  | add a b => exact runF2RR_firstInvalid rfl h _ s
  | mul a b => exact runF2RR_firstInvalid rfl h _ s
  | cmp a b => exact runF2RR_firstInvalid rfl h _ s

/-- Everything an instruction can do. -/
theorem exec_cases (i : Instr) (s : State) :
    (∃ t, i.wellFormed = true ∧ Effect s i t ∧ exec i s = .next (completeCycle (opcodeOf i) s.pc t)) ∨
      (∃ r, i.wellFormed = false ∧ firstInvalid i = some r ∧
        exec i s = .next (raiseFault (.invalidRegister (opcodeOf i) r) s)) := by
  by_cases h : i.wellFormed = true
  · obtain ⟨t, ht⟩ := effect_of_wellFormed h s
    exact .inl ⟨t, h, ht, exec_of_effect ht⟩
  · have h' : firstInvalid i ≠ none := fun e => h ((wellFormed_iff_firstInvalid i).2 e)
    obtain ⟨r, hr⟩ := Option.ne_none_iff_exists'.1 h'
    exact .inr ⟨r, by simpa using h, hr, exec_of_firstInvalid hr s⟩

end Sys2Proof.Machine
end

