-- ==== Sys2Proof/Laws/Loader.lean ====
section
/-! SUPPORT. What the loader's operations on a program file's text can do, once (30_encoding.md R91). -/

namespace Sys2Proof.Machine

/-! ### Lines -/

theorem splitLines_cons_line (line rest : List Char) (h : '\n' ∉ line) :
    splitLines (line ++ '\n' :: rest) = line :: splitLines rest := by
  induction line with
  | nil => simp [splitLines]
  | cons c line ih =>
    have hc : c ≠ '\n' := fun e => h (by simp [e])
    simp [splitLines, hc, ih fun hh => h (by simp [hh])]

theorem splitLines_one_line (line : List Char) (h : '\n' ∉ line) : splitLines line = [line] := by
  induction line with
  | nil => rfl
  | cons c line ih =>
    have hc : c ≠ '\n' := fun e => h (by simp [e])
    simp [splitLines, hc, ih fun hh => h (by simp [hh])]

/-- Lines joined by line feeds are split into the same lines. -/
theorem splitLines_intercalate :
    ∀ lines : List (List Char), lines ≠ [] → (∀ l ∈ lines, '\n' ∉ l) → splitLines (['\n'].intercalate lines) = lines
  | [], h, _ => absurd rfl h
  | [l], _, h => by simpa [List.intercalate] using splitLines_one_line l (h l (by simp))
  | l :: m :: ls, _, h => by
    have : ['\n'].intercalate (l :: m :: ls) = l ++ '\n' :: ['\n'].intercalate (m :: ls) := by
      simp [List.intercalate, List.intersperse]
    rw [this, splitLines_cons_line _ _ (h l (by simp)),
      splitLines_intercalate (m :: ls) (by simp) fun x hx => h x (by simp [hx])]

/-! ### The content of a line -/

theorem takeWhile_before_comment (text comment : List Char) (ht : '#' ∉ text)
    (hc : comment = [] ∨ comment.head? = some '#') : (text ++ comment).takeWhile (fun c => c ≠ '#') = text := by
  have all : ∀ x ∈ text, decide (x ≠ '#') = true := fun x hx => by simp; rintro rfl; exact ht hx
  rw [List.takeWhile_append_of_pos all]
  rcases hc with rfl | hc
  · simp
  · cases comment with
    | nil => simp
    | cons d comment => simp at hc; subst hc; simp

theorem dropWhile_whitespace (blank text : List Char) (hb : ∀ c ∈ blank, c.isWhitespace = true)
    (ht : ∀ c, text.head? = some c → c.isWhitespace = false) : (blank ++ text).dropWhile Char.isWhitespace = text := by
  rw [List.dropWhile_append_of_pos hb]
  cases text with
  | nil => rfl
  | cons d text => simp [ht d rfl]

/-- A line's content is what stands between the whitespace before its comment. -/
theorem lineContent_eq (before content after comment : List Char) (hb : ∀ c ∈ before, c.isWhitespace = true)
    (ha : ∀ c ∈ after, c.isWhitespace = true) (hc : comment = [] ∨ comment.head? = some '#')
    (hd : ∀ c ∈ content, c.isWhitespace = false ∧ c ≠ '#') :
    lineContent (before ++ content ++ after ++ comment) = content := by
  have ws : ∀ x : Char, x.isWhitespace = true → x ≠ '#' := by rintro x hx rfl; revert hx; decide
  have noHash : '#' ∉ before ++ content ++ after := by
    simp only [List.mem_append, not_or]
    exact ⟨⟨fun h => ws _ (hb _ h) rfl, fun h => (hd _ h).2 rfl⟩, fun h => ws _ (ha _ h) rfl⟩
  unfold lineContent
  simp only [takeWhile_before_comment _ comment noHash hc]
  by_cases h0 : content = []
  · subst h0
    have blank : (before ++ [] ++ after).dropWhile Char.isWhitespace = [] := by
      simpa using dropWhile_whitespace (before ++ after) []
        (fun x hx => (List.mem_append.1 hx).elim (hb x) (ha x)) (by simp)
    rw [blank]; rfl
  · rw [List.append_assoc, dropWhile_whitespace before (content ++ after) hb, List.reverse_append,
      dropWhile_whitespace _ _ (by simpa using ha), List.reverse_reverse]
    · intro x hx
      rw [List.head?_reverse] at hx
      exact (hd x (List.mem_of_getLast? hx)).1
    · intro x hx
      cases content with
      | nil => exact absurd rfl h0
      | cons e content => simp at hx; subst hx; exact (hd _ (by simp)).1

/-! ### A binary literal -/

theorem binaryValue_eq (digits : List Char) (h : ∀ c ∈ digits, c = '0' ∨ c = '1') (n : Nat) :
    binaryValue n digits = some (digits.foldl (fun n c => 2 * n + if c = '1' then 1 else 0) n) := by
  induction digits generalizing n with
  | nil => rfl
  | cons e digits ih =>
    have ih := ih (fun x hx => h x (by simp [hx]))
    rcases h e (by simp) with rfl | rfl <;> simp [binaryValue, ih]

theorem binaryValue_none (digits : List Char) {c : Char} (h : c ∈ digits) (h0 : c ≠ '0') (h1 : c ≠ '1') (n : Nat) :
    binaryValue n digits = none := by
  induction digits generalizing n with
  | nil => cases h
  | cons d digits ih =>
    unfold binaryValue
    split
    · rename_i e; cases e
    · rename_i e; obtain ⟨rfl, rfl⟩ := List.cons.inj e; exact ih ((List.mem_cons.1 h).resolve_left h0) _
    · rename_i e; obtain ⟨rfl, rfl⟩ := List.cons.inj e; exact ih ((List.mem_cons.1 h).resolve_left h1) _
    · rfl

/-- The content of a line that spells: the literal parses to its byte, and there is none where it spells none. -/
theorem lineContent_of_spells {line : List Char} {value : Option Byte} (h : LineSpells line value) :
    match value with
    | none => lineContent line = []
    | some v => lineContent line ≠ [] ∧ parseByte (lineContent line) = some v := by
  obtain ⟨-, b, d, a, c, rfl, hb, ha, hc, hd, hv⟩ := h
  rw [lineContent_eq b d a c hb ha hc fun x hx => by rcases hd x hx with rfl | rfl <;> decide]
  cases value with
  | none => exact hv
  | some v =>
    obtain ⟨h1, h8, hv⟩ := hv
    refine ⟨List.ne_nil_of_length_pos h1, ?_⟩
    rw [parseByte, if_pos h8, binaryValue_eq d hd, ← hv]
    simp

end Sys2Proof.Machine
end

