-- ==== Sys2Proof/Laws/PerInstr.lean ====
section
/-! SUPPORT. Facts about each instruction as it is written: its opcode byte's fields against the opcode table
(30_encoding.md R72, R76). -/

namespace Sys2Proof.Laws.OpcodeFields

/-- The fields that the decoder extracts from the instruction's opcode byte give its length, its ALU class and whether
its handler sets pc. -/
def Statement (i : Instr) : Prop :=
  (encode i).head? = some (opcodeOf i) ∧
    instrLength (opcodeOf i) = (encode i).length ∧
    isAlu (opcodeOf i) = (match i with | .add .. | .mul .. | .cmp .. => true | _ => false) ∧
    setsPc (opcodeOf i) = (match i with | .ret | .call .. | .jmp .. | .jeq .. | .jne .. => true | _ => false)

theorem hlt : Statement .hlt :=
  ⟨rfl, (by decide : instrLength opHLT = 1),
    (by decide : isAlu opHLT = false), (by decide : setsPc opHLT = false)⟩
theorem ldi (a imm : Byte) : Statement (.ldi a imm) :=
  ⟨rfl, (by decide : instrLength opLDI = 3),
    (by decide : isAlu opLDI = false), (by decide : setsPc opLDI = false)⟩
theorem prn (a : Byte) : Statement (.prn a) :=
  ⟨rfl, (by decide : instrLength opPRN = 2),
    (by decide : isAlu opPRN = false), (by decide : setsPc opPRN = false)⟩
theorem add (a b : Byte) : Statement (.add a b) :=
  ⟨rfl, (by decide : instrLength opADD = 3),
    (by decide : isAlu opADD = true), (by decide : setsPc opADD = false)⟩
theorem mul (a b : Byte) : Statement (.mul a b) :=
  ⟨rfl, (by decide : instrLength opMUL = 3),
    (by decide : isAlu opMUL = true), (by decide : setsPc opMUL = false)⟩
theorem push (a : Byte) : Statement (.push a) :=
  ⟨rfl, (by decide : instrLength opPUSH = 2),
    (by decide : isAlu opPUSH = false), (by decide : setsPc opPUSH = false)⟩
theorem pop (a : Byte) : Statement (.pop a) :=
  ⟨rfl, (by decide : instrLength opPOP = 2),
    (by decide : isAlu opPOP = false), (by decide : setsPc opPOP = false)⟩
theorem ret : Statement .ret :=
  ⟨rfl, (by decide : instrLength opRET = 1),
    (by decide : isAlu opRET = false), (by decide : setsPc opRET = true)⟩
theorem call (a : Byte) : Statement (.call a) :=
  ⟨rfl, (by decide : instrLength opCALL = 2),
    (by decide : isAlu opCALL = false), (by decide : setsPc opCALL = true)⟩
theorem cmp (a b : Byte) : Statement (.cmp a b) :=
  ⟨rfl, (by decide : instrLength opCMP = 3),
    (by decide : isAlu opCMP = true), (by decide : setsPc opCMP = false)⟩
theorem jmp (a : Byte) : Statement (.jmp a) :=
  ⟨rfl, (by decide : instrLength opJMP = 2),
    (by decide : isAlu opJMP = false), (by decide : setsPc opJMP = true)⟩
theorem jeq (a : Byte) : Statement (.jeq a) :=
  ⟨rfl, (by decide : instrLength opJEQ = 2),
    (by decide : isAlu opJEQ = false), (by decide : setsPc opJEQ = true)⟩
theorem jne (a : Byte) : Statement (.jne a) :=
  ⟨rfl, (by decide : instrLength opJNE = 2),
    (by decide : isAlu opJNE = false), (by decide : setsPc opJNE = true)⟩

end Sys2Proof.Laws.OpcodeFields
end

