-- ==== Sys2Proof/Laws/Step.lean ====
section
/-! SUPPORT. What the front of a cycle and one step can do, once. -/

namespace Sys2Proof.Machine

/-! ### The ceiling check (40_execution_loop.md R101) -/

theorem checkCeiling_below {s : State} (h : BelowCeiling s) : checkCeiling s = .ok () := by
  unfold checkCeiling
  split
  · rfl
  · exact if_neg (Nat.not_le.2 (h _ ‹_›))

theorem checkCeiling_reached {s : State} {limit : Nat} (h : s.stepLimit = some limit) (hc : limit ≤ s.count) :
    checkCeiling s = .error .timeout := by
  simp [checkCeiling, h, hc]

theorem not_belowCeiling {s : State} (h : ¬ BelowCeiling s) : ∃ limit, s.stepLimit = some limit ∧ limit ≤ s.count := by
  simpa [BelowCeiling] using h

/-! ### The fetch (40_execution_loop.md R102) -/

theorem fetchWindow_inRange {s : State} (h : s.pc.toNat ≤ 253) : fetchWindow s = .ok (bytesAtPc s) := by
  simp only [fetchWindow, memRead_inRange s (show s.pc.toNat < 256 by omega),
    memRead_inRange s (show s.pc.toNat + 1 < 256 by omega),
    memRead_inRange s (show s.pc.toNat + 2 < 256 by omega)]
  rfl

/-- The first address of the window that is out of range is 256, or pc itself from 256 on. -/
theorem fetchWindow_outOfRange {s : State} (h : 254 ≤ s.pc.toNat) :
    fetchWindow s = .error (.addressOutOfRange (max 256 s.pc.toNat)) := by
  by_cases h0 : 256 ≤ s.pc.toNat
  · simp only [fetchWindow, memRead_outOfRange s h0]
    rw [max_eq_right h0]; rfl
  · by_cases h1 : 256 ≤ s.pc.toNat + 1
    · simp only [fetchWindow, memRead_inRange s (Nat.not_le.1 h0), memRead_outOfRange s h1]
      rw [show max 256 s.pc.toNat = s.pc.toNat + 1 by omega]; rfl
    · have h2 : 256 ≤ s.pc.toNat + 2 := by omega
      simp only [fetchWindow, memRead_inRange s (Nat.not_le.1 h0), memRead_inRange s (Nat.not_le.1 h1),
        memRead_outOfRange s h2]
      rw [show max 256 s.pc.toNat = s.pc.toNat + 2 by omega]; rfl

/-! ### The front of a cycle -/

theorem fetchAndDecode_timeout {s : State} {limit : Nat} (h : s.stepLimit = some limit) (hc : limit ≤ s.count) :
    fetchAndDecode s = .error .timeout := by
  simp only [fetchAndDecode, checkCeiling_reached h hc]; rfl

theorem fetchAndDecode_outOfRange {s : State} (h : BelowCeiling s) (hp : 254 ≤ s.pc.toNat) :
    fetchAndDecode s = .error (.addressOutOfRange (max 256 s.pc.toNat)) := by
  simp only [fetchAndDecode, checkCeiling_below h, fetchWindow_outOfRange hp]; rfl

theorem fetchAndDecode_inRange {s : State} (h : BelowCeiling s) (hp : s.pc.toNat ≤ 253) :
    fetchAndDecode s = decodeWindow (bytesAtPc s) := by
  simp only [fetchAndDecode, checkCeiling_below h, fetchWindow_inRange hp]; rfl

theorem decodeWindow_ok {w : Window} {i : Instr} (h : decode w = .ok i) : decodeWindow w = .ok i := by
  simp [decodeWindow, h]

theorem decodeWindow_unsupported {w : Window} (h : decode w = .error .unsupportedALUOperation) :
    decodeWindow w = .error (.unsupportedALUOperation w.ir) := by
  simp [decodeWindow, h]

theorem decodeWindow_invalid {w : Window} (h : decode w = .error .invalidInstruction) :
    decodeWindow w = .error (.invalidInstruction w.ir) := by
  simp [decodeWindow, h]

/-! ### One step -/

theorem step_of_not_running {s : State} (h : s.status ≠ .running) : step s = .next s := by
  unfold step cycleStart
  cases hs : s.status with
  | running => exact absurd hs h
  | halted => rfl
  | faulted k => rfl

theorem step_of_raise {s : State} {k : Raise} (h : s.status = .running) (hk : fetchAndDecode s = .error k) :
    step s = .next (raiseFault k s) := by
  simp [step, cycleStart, h, hk]

theorem step_of_instr {s : State} {i : Instr} (h : s.status = .running) (hi : fetchAndDecode s = .ok i) :
    step s = exec i s := by
  simp [step, cycleStart, h, hi]

/-- A step of a CORE that fetches an instruction runs it. -/
theorem step_of_decode {s : State} {i : Instr} (h : Fetches s) (hi : decode (bytesAtPc s) = .ok i) :
    step s = exec i s :=
  step_of_instr h.1 ((fetchAndDecode_inRange h.2.1 h.2.2).trans (decodeWindow_ok hi))

/-- Everything one step can do, in the order of priority of its faults (60_exceptions.md R208). -/
theorem step_cases (s : State) :
    (s.status ≠ .running ∧ step s = .next s) ∨
    (s.status = .running ∧ (∃ limit, s.stepLimit = some limit ∧ limit ≤ s.count) ∧
      step s = .next (raiseFault .timeout s)) ∨
    (s.status = .running ∧ BelowCeiling s ∧ 254 ≤ s.pc.toNat ∧
      step s = .next (raiseFault (.addressOutOfRange (max 256 s.pc.toNat)) s)) ∨
    (Fetches s ∧ decode (bytesAtPc s) = .error .unsupportedALUOperation ∧
      step s = .next (raiseFault (.unsupportedALUOperation (bytesAtPc s).ir) s)) ∨
    (Fetches s ∧ decode (bytesAtPc s) = .error .invalidInstruction ∧
      step s = .next (raiseFault (.invalidInstruction (bytesAtPc s).ir) s)) ∨
    (∃ i, Fetches s ∧ decode (bytesAtPc s) = .ok i ∧ step s = exec i s) := by
  by_cases hr : s.status = .running
  · by_cases hb : BelowCeiling s
    · by_cases hp : 254 ≤ s.pc.toNat
      · exact .inr (.inr (.inl ⟨hr, hb, hp, step_of_raise hr (fetchAndDecode_outOfRange hb hp)⟩))
      · have hp' : s.pc.toNat ≤ 253 := by omega
        have hf : Fetches s := ⟨hr, hb, hp'⟩
        have hfd := fetchAndDecode_inRange hb hp'
        cases hd : decode (bytesAtPc s) with
        | ok i => exact .inr (.inr (.inr (.inr (.inr ⟨i, hf, rfl, step_of_decode hf hd⟩))))
        | error e =>
          cases e with
          | unsupportedALUOperation =>
            exact .inr (.inr (.inr (.inl ⟨hf, rfl, step_of_raise hr (hfd.trans (decodeWindow_unsupported hd))⟩)))
          | invalidInstruction =>
            exact .inr (.inr (.inr (.inr (.inl ⟨hf, rfl, step_of_raise hr (hfd.trans (decodeWindow_invalid hd))⟩))))
    · obtain ⟨limit, hl, hc⟩ := not_belowCeiling hb
      exact .inr (.inl ⟨hr, ⟨limit, hl, hc⟩, step_of_raise hr (fetchAndDecode_timeout hl hc)⟩)
  · exact .inl ⟨hr, step_of_not_running hr⟩

end Sys2Proof.Machine
end

