-- ==== Sys2Proof/Tests/Slice0.lean ====
section
/-! SUPPORT. Tests of one step each, with the expected results of spec/95_test_vectors.md (the row is named in each
comment) or of the rule cited; decoding of words written out from the spec's encodings; and a witness for the hypotheses
of every statement that has some. -/

namespace Sys2Proof.Tests

open Sys2Proof.Machine

/-- The next state, where there is one. -/
def nextOf : Host.Outcome State Fault Refusal → Option State
  | .next t => some t
  | .fault _ => none
  | .refused _ => none

/-- The reset state with this memory, pc and registers. -/
def start (mem : List Host.Cell) (pc : PcWord) (regs : List (Fin 8 × Byte)) : State :=
  regs.foldl (fun s p => s.setReg p.1 p.2) { State.reset with mem := mem, pc := pc }

/-- Some fields of the state after one step. -/
def stepped {α : Type} (s : State) (f : State → α) : Option α := (nextOf (step s)).map f

/-! ### Well-formedness: each register operand of each format is checked -/

theorem test_wellFormed_accepts : (Instr.add 0 7).wellFormed = true ∧ (Instr.ldi 7 255).wellFormed = true := by decide
theorem test_illFormed_a_of_F1R : (Instr.push 8).wellFormed = false := by decide
theorem test_illFormed_a_of_F2RI : (Instr.ldi 8 0).wellFormed = false := by decide
theorem test_illFormed_a_of_F2RR : (Instr.cmp 8 0).wellFormed = false := by decide
theorem test_illFormed_b_of_F2RR : (Instr.mul 0 255).wellFormed = false := by decide

/-! ### Decoding: every opcode of 30_encoding.md R72, written bit by bit -/

theorem test_decode_HLT : decode ⟨0b00000001, 0, 0⟩ = .ok .hlt := by decide
theorem test_decode_LDI : decode ⟨0b10000010, 0b00000001, 0b11001000⟩ = .ok (.ldi 1 200) := by decide
theorem test_decode_PRN : decode ⟨0b01000111, 0b00000111, 0⟩ = .ok (.prn 7) := by decide
theorem test_decode_ADD : decode ⟨0b10100000, 0b00000010, 0b00000101⟩ = .ok (.add 2 5) := by decide
theorem test_decode_MUL : decode ⟨0b10100010, 0b00000011, 0b00000100⟩ = .ok (.mul 3 4) := by decide
theorem test_decode_PUSH : decode ⟨0b01000101, 0b00000110, 0⟩ = .ok (.push 6) := by decide
theorem test_decode_POP : decode ⟨0b01000110, 0b00000001, 0⟩ = .ok (.pop 1) := by decide
theorem test_decode_RET : decode ⟨0b00010001, 0, 0⟩ = .ok .ret := by decide
theorem test_decode_CALL : decode ⟨0b01010000, 0b00000011, 0⟩ = .ok (.call 3) := by decide
theorem test_decode_CMP : decode ⟨0b10100111, 0b00000000, 0b00000001⟩ = .ok (.cmp 0 1) := by decide
theorem test_decode_JMP : decode ⟨0b01010100, 0b00000011, 0⟩ = .ok (.jmp 3) := by decide
theorem test_decode_JEQ : decode ⟨0b01010101, 0b00001000, 0⟩ = .ok (.jeq 8) := by decide
theorem test_decode_JNE : decode ⟨0b01010110, 0b00000011, 0⟩ = .ok (.jne 3) := by decide

/-- The illegal rows of 95_test_vectors.md section 2. -/
theorem test_decode_illegal :
    ([0x00, 0x02, 0xC0, 0x90, 0x51, 0x48] : List Byte).all
      (fun ir => decide (decode ⟨ir, 9, 9⟩ = .error .invalidInstruction)) = true ∧
    ([0x20, 0xA1, 0xA3, 0xE0, 0xFF] : List Byte).all
      (fun ir => decide (decode ⟨ir, 9, 9⟩ = .error .unsupportedALUOperation)) = true := by decide

/-- LDI R1,200 as the host numbers its bits: the opcode is the least significant byte. -/
theorem test_decodeTableWord : decodeTableWord 24 0xC80182 = some (.ldi 1 200) ∧ decodeTableWord 16 0xFF0347 = some (.prn 3) ∧
    decodeTableWord 8 0x02 = none := by decide

/-- 44_halt_load_output.md R181's example, as the first instruction after reset. -/
theorem test_withFetchWord : stepped (State.reset.withFetchWord 24 0x080082) (fun t => (t.reg 0, t.pc, t.count)) =
    some (8, 3, 1) := by decide

/-! ### ALU (95_test_vectors.md section 3) -/

/-- A1 -/
theorem test_add_wraps : stepped (start [(0, 0xA0), (2, 0x01)] 0 [(0, 0xFF), (1, 0x01)])
    (fun t => (t.reg 0, t.reg 1, t.flags, t.pc, t.count)) = some (0, 1, 0, 3, 1) := by decide
/-- A3 -/
theorem test_add_same_register : stepped (start [(0, 0xA0)] 0 [(0, 0x80)]) (fun t => t.reg 0) = some 0 := by decide
/-- A5 -/
theorem test_mul_wraps : stepped (start [(0, 0xA2), (2, 0x01)] 0 [(0, 0xFF), (1, 0xFF)]) (fun t => (t.reg 0, t.pc)) =
    some (1, 3) := by decide
/-- A6 -/
theorem test_mul_square : stepped (start [(0, 0xA2), (1, 0x02), (2, 0x02)] 0 [(2, 0x10)]) (fun t => t.reg 2) = some 0 := by
  decide
/-- A9 -/
theorem test_cmp_is_unsigned : stepped (start [(0, 0xA7), (2, 0x01)] 0 [(0, 0x80), (1, 0x7F)])
    (fun t => (t.flags, t.reg 0, t.reg 1)) = some (0x02, 0x80, 0x7F) := by decide
/-- A11 -/
theorem test_cmp_replaces_flags : stepped
    { start [(0, 0xA7), (2, 0x01)] 0 [(0, 0x07), (1, 0x07)] with flags := 0x04 } (fun t => t.flags) = some 0x01 := by decide
/-- A13 -/
theorem test_add_checks_a_first : stepped (start [(0, 0xA0), (1, 0x09), (2, 0x0C)] 0 [])
    (fun t => (t.status, t.fault.freg, t.fault.fopc, t.pc, t.count)) =
    some (.faulted .invalidRegister, 0x09, 0xA0, 0, 0) := by decide
/-- A16 -/
theorem test_decode_precedes_operand_check : stepped (start [(0, 0xFF), (1, 0x09), (2, 0x09)] 0 []) (fun t => t.status) =
    some (.faulted .unsupportedALUOperation) := by decide

/-! ### Stack (95_test_vectors.md section 4) -/

/-- K2 -/
theorem test_push_R7 : stepped (start [(0, 0x45), (1, 0x07)] 0 []) (fun t => (t.sp, t.cell 0xF3, t.pc)) =
    some (0xF3, 0xF3, 2) := by decide
/-- K6 -/
theorem test_push_wraps : stepped (start [(0, 0x45)] 0 [(0, 0x33), (7, 0x00)]) (fun t => (t.sp, t.cell 0xFF)) =
    some (0xFF, 0x33) := by decide
/-- K5 -/
theorem test_pop_keeps_the_cell : stepped (start [(0, 0x46), (1, 0x01), (0xF3, 0x2A)] 0 [(7, 0xF3)])
    (fun t => (t.reg 1, t.sp, t.cell 0xF3)) = some (0x2A, 0xF4, 0x2A) := by decide
/-- K9 -/
theorem test_pop_R7 : stepped (start [(0, 0x46), (1, 0x07), (0xF3, 0x40)] 0 [(7, 0xF3)]) (fun t => t.sp) = some 0x41 := by
  decide
/-- K3 -/
theorem test_call : stepped (start [(9, 0x50), (10, 0x03)] 9 [(3, 0x0E)]) (fun t => (t.sp, t.cell 0xF3, t.pc)) =
    some (0xF3, 0x0B, 0x0E) := by decide
/-- K8 -/
theorem test_call_R7 : stepped (start [(9, 0x50), (10, 0x07)] 9 []) (fun t => (t.sp, t.cell 0xF3, t.pc)) =
    some (0xF3, 0x0B, 0xF3) := by decide
/-- K4 -/
theorem test_ret : stepped (start [(0x14, 0x11), (0xF3, 0x0B)] 0x14 [(7, 0xF3)]) (fun t => (t.pc, t.sp)) =
    some (0x0B, 0xF4) := by decide
/-- K10 -/
theorem test_ret_on_empty_stack : stepped (start [(5, 0x11)] 5 []) (fun t => (t.pc, t.sp)) = some (0, 0xF5) := by decide

/-! ### Control flow (95_test_vectors.md section 5) -/

/-- B1 -/
theorem test_jmp : stepped (start [(0x14, 0x54), (0x15, 0x03)] 0x14 [(3, 0x1E)]) (fun t => (t.pc, t.status)) =
    some (0x1E, .running) := by decide
/-- B4 -/
theorem test_jeq_not_taken : stepped { start [(0x14, 0x55), (0x15, 0x03)] 0x14 [(3, 0x1E)] with flags := 0x04 }
    (fun t => t.pc) = some 0x16 := by decide
/-- B8 -/
theorem test_jeq_checks_its_operand : stepped { start [(0x14, 0x55), (0x15, 0x08)] 0x14 [] with flags := 0x04 }
    (fun t => (t.status, t.fault.fpc, t.fault.freg)) = some (.faulted .invalidRegister, 0x14, 0x08) := by decide
/-- B5 -/
theorem test_jne_taken : stepped { start [(0x14, 0x56), (0x15, 0x03)] 0x14 [(3, 0x0C)] with flags := 0x02 }
    (fun t => t.pc) = some 0x0C := by decide
/-- B6 -/
theorem test_jne_not_taken : stepped { start [(0x14, 0x56), (0x15, 0x03)] 0x14 [(3, 0x0C)] with flags := 0x01 }
    (fun t => t.pc) = some 0x16 := by decide

/-! ### HLT, LDI and PRN (95_test_vectors.md section 6) -/

/-- H2 -/
theorem test_hlt_at_253 : stepped (start [(0xFD, 0x01)] 0xFD []) (fun t => (t.status, t.pc, t.count)) =
    some (.halted, 0xFE, 1) := by decide
/-- H3 -/
theorem test_hlt_at_254 : stepped (start [(0xFE, 0x01)] 0xFE [])
    (fun t => (t.status, t.fault, t.pc, t.count)) =
    some (.faulted .addressOutOfRange, ⟨0xFE, 0, 0x100, 0, 0⟩, 0xFE, 0) := by decide
/-- H5 -/
theorem test_ldi_R7 : stepped (start [(0, 0x82), (1, 0x07), (2, 0x10)] 0 []) (fun t => t.sp) = some 0x10 := by decide
/-- H8 -/
theorem test_ldi_leaves_pc_256 : stepped (start [(0xFD, 0x82), (0xFF, 0x01)] 0xFD []) (fun t => (t.reg 0, t.pc)) =
    some (1, 0x100) := by decide
/-- H9 -/
theorem test_prn : stepped { start [(0, 0x47)] 0 [(0, 0xFF)] with out := [7] } (fun t => (t.out, t.pc)) =
    some ([7, 255], 2) := by decide
/-- H10 -/
theorem test_prn_invalid : stepped (start [(0, 0x47), (1, 0x09)] 0 []) (fun t => (t.status, t.out)) =
    some (.faulted .invalidRegister, []) := by decide

/-! ### Faults, the ceiling and the host (95_test_vectors.md sections 1, 7 and 8) -/

/-- F1 -/
theorem test_fetch_precedes_decode : stepped (start [(0xFE, 0x02)] 0xFE []) (fun t => t.status) =
    some (.faulted .addressOutOfRange) := by decide
/-- S8 -/
theorem test_invalid_instruction : stepped (start [(0, 0x02)] 0 []) (fun t => (t.status, t.fault, t.pc, t.count)) =
    some (.faulted .invalidInstruction, ⟨0, 0x02, 0, 0, 0⟩, 0, 0) := by decide
/-- F5 -/
theorem test_unsupported_alu : stepped (start [(0, 0x20)] 0 []) (fun t => (t.status, t.fault.fopc)) =
    some (.faulted .unsupportedALUOperation, 0x20) := by decide
/-- H8, the next cycle -/
theorem test_fetch_at_256 : stepped (start [] 0x100 []) (fun t => (t.status, t.fault.fpc, t.fault.faddr)) =
    some (.faulted .addressOutOfRange, 0x100, 0x100) := by decide
/-- T5 -/
theorem test_ceiling_comes_first : stepped { start [(0, 0x02)] 0 [] with stepLimit := some 0 }
    (fun t => (t.status, t.fault.fcount)) = some (.faulted .timeout, 0) := by decide
/-- T3 -/
theorem test_halt_within_ceiling : stepped { start [(0, 0x01)] 0 [] with stepLimit := some 1 } (fun t => (t.status, t.count)) =
    some (.halted, 1) := by decide
/-- F6 -/
theorem test_terminal : stepped { start [(0, 0x01)] 0 [] with status := .halted } id =
    some { start [(0, 0x01)] 0 [] with status := .halted } := by decide
/-- S6: the line of the byte 72 is `72` and LF. -/
theorem test_render : renderOutput [72, 0, 255] = [0x37, 0x32, 0x0A, 0x30, 0x0A, 0x32, 0x35, 0x35, 0x0A] := by decide
/-- LDI R0,8 with a comment, a comment-only line, an empty line and an indented one (30_encoding.md R91). -/
theorem test_program_file : parseLines (splitLines
    "10000010 # LDI\n00000000\n# none\n\n  00001000".toList) =
    some [0x82, 0x00, 0x08] := by decide
/-- 60_exceptions.md R220's format. -/
theorem test_trace : traceLine (start [(0, 0x82), (2, 0x08)] 0 []) =
    some "00 | 82 00 08 | 00 00 00 00 00 00 00 F4" := by decide

/-- The spelling of P1's third instruction, and none for a register byte of 8 (30_encoding.md R90). -/
theorem test_spelling : assemblySpelling (.mul 0 1) = some "MUL R0,R1" ∧ assemblySpelling (.prn 8) = none := by decide

/-! ### Witnesses: the hypotheses of each statement are met -/

theorem belowCeiling_none {s : State} (h : s.stepLimit = none) : BelowCeiling s := fun _ e => by rw [h] at e; cases e

theorem notFaulted_running {s : State} (h : s.status = .running) : NotFaulted s := fun k e => by rw [h] at e; cases e

theorem witness_LaunchLoadsImageAtZero :
    (List.replicate 256 (1 : Byte)).length ≤ 256 ∧ 256 < (List.replicate 257 (1 : Byte)).length := by
  constructor <;> rw [List.length_replicate]; exact Nat.lt_succ_self 256
/-- A line of 2 digits with whitespace and a comment, a comment-only line and an empty one. -/
theorem witness_ProgramFileLaunchesItsImage_spells :
    LineSpells [' ', '1', '0', ' ', '#', '9'] (some 2) ∧ LineSpells ['#', '1'] none ∧ LineSpells [] none := by
  refine ⟨⟨by simp, [' '], ['1', '0'], [' '], ['#', '9'], rfl, ?_⟩, ⟨by simp, [], [], [], ['#', '1'], rfl, ?_⟩,
    ⟨by simp, [], [], [], [], rfl, ?_⟩⟩ <;> simp [Char.isWhitespace]
theorem witness_ProgramFileLaunchesItsImage_fails :
    ∃ line, line ∈ splitLines "1#\n012".toList ∧ '2' ∈ lineContent line ∧ '2' ≠ '0' ∧ '2' ≠ '1' :=
  ⟨"012".toList, by decide⟩
theorem witness_MemoryPrimitivesAreBoundsChecked :
    Memory.wf (start [(255, 7)] 0 []).mem = true ∧ 255 < 256 ∧ 256 ≤ 256 := by decide
theorem witness_CanonicalMemoriesThatReadAlikeAreEqual :
    Memory.wf [(0, 1), (255, 2)] = true ∧ ∀ a < 256, Memory.read [(0, 1), (255, 2)] a = Memory.read [(0, 1), (255, 2)] a :=
  ⟨by decide, fun _ _ => rfl⟩
theorem witness_EncodeOfDecodeIsTheBytes : decode ⟨0x47, 0xFF, 0xFF⟩ = .ok (.prn 0xFF) := by decide
theorem witness_BytesBeyondTheLengthAreNotLookedAt :
    (⟨0x47, 3, 4⟩ : Window).ir = (⟨0x47, 3, 5⟩ : Window).ir ∧ (2 ≤ instrLength 0x47 → (3 : Byte) = 3) ∧
      (3 ≤ instrLength 0x47 → (4 : Byte) = 5) := by decide
theorem witness_TerminalStatesNeverChange_halted : { State.reset with status := .halted }.status ≠ .running := by decide
theorem witness_TerminalStatesNeverChange_faulted :
    { State.reset with status := .faulted .timeout }.status ≠ .running := by decide

/-- LDI R0,1 at the last address where an instruction can be fetched. -/
def atLastFetch : State := start [(0xFD, 0x82), (0xFF, 0x01)] 0xFD []

theorem fetches_atLastFetch : Fetches atLastFetch := ⟨by decide, belowCeiling_none rfl, by decide⟩

theorem witness_StepRunsTheDecodedInstruction :
    atLastFetch.status = .running ∧ BelowCeiling atLastFetch ∧ atLastFetch.pc.toNat ≤ 253 ∧
      decode ⟨atLastFetch.cell atLastFetch.pc.toNat, atLastFetch.cell (atLastFetch.pc.toNat + 1),
        atLastFetch.cell (atLastFetch.pc.toNat + 2)⟩ = .ok (.ldi 0 1) :=
  ⟨by decide, belowCeiling_none rfl, by decide, by decide⟩
theorem witness_CeilingRaisesTimeout :
    { State.reset with stepLimit := some 5, count := 5 }.status = .running ∧ (some 5 : Option Nat) = some 5 ∧ 5 ≤ 5 := by
  decide
theorem witness_FetchPastTheEndRaisesAddressOutOfRange_254 :
    (start [] 254 []).status = .running ∧ BelowCeiling (start [] 254 []) ∧ 254 ≤ (start [] 254 []).pc.toNat :=
  ⟨by decide, belowCeiling_none rfl, by decide⟩
theorem witness_FetchPastTheEndRaisesAddressOutOfRange_511 :
    (start [] 511 []).status = .running ∧ BelowCeiling (start [] 511 []) ∧ 254 ≤ (start [] 511 []).pc.toNat :=
  ⟨by decide, belowCeiling_none rfl, by decide⟩
theorem witness_UnsupportedAluOpcodeFaults :
    Fetches (start [(253, 0xFF)] 253 []) ∧ ((start [(253, 0xFF)] 253 []).cell 253).getLsbD 5 = true ∧
      ¬ InAluTable ((start [(253, 0xFF)] 253 []).cell 253) :=
  ⟨⟨by decide, belowCeiling_none rfl, by decide⟩, by decide, by unfold InAluTable; decide⟩
theorem witness_OpcodeInNeitherTableFaults :
    Fetches (start [(0, 0x02)] 0 []) ∧ ((start [(0, 0x02)] 0 []).cell 0).getLsbD 5 = false ∧
      ¬ InDispatchTable ((start [(0, 0x02)] 0 []).cell 0) :=
  ⟨⟨by decide, belowCeiling_none rfl, by decide⟩, by decide, by unfold InDispatchTable; decide⟩
theorem witness_IllFormedInstructionRaisesInvalidRegister :
    (Instr.add 9 12).registerOperands.find? (fun q => decide (8 ≤ q.toNat)) = some 9 ∧
    (Instr.add 7 8).registerOperands.find? (fun q => decide (8 ≤ q.toNat)) = some 8 ∧
    (Instr.jne 255).registerOperands.find? (fun q => decide (8 ≤ q.toNat)) = some 255 := by decide
theorem witness_WellFormedInstructionNeverFaults : (Instr.cmp 0 7).wellFormed = true ∧ NotFaulted State.reset :=
  ⟨by decide, notFaulted_running rfl⟩

/-- A firing of each kind, and of none, from a running state. -/
theorem witness_FirstFaultInPriorityOrderDecides :
    firstFault { start [] 300 [] with stepLimit := some 0 } = some .timeout ∧
    firstFault (start [(254, 0x02)] 254 []) = some .addressOutOfRange ∧
    firstFault (start [(253, 0xFF), (254, 0x09)] 253 []) = some .unsupportedALUOperation ∧
    firstFault (start [(253, 0x02)] 253 []) = some .invalidInstruction ∧
    firstFault (start [(0, 0xA0), (2, 0x08)] 0 []) = some .invalidRegister ∧
    firstFault { atLastFetch with stepLimit := some 1 } = none := by decide

theorem witness_FaultsArePrecise_addressOutOfRange :
    ∃ t, (start [] 256 []).status = .running ∧ step (start [] 256 []) = .next t ∧
      t.status = .faulted .addressOutOfRange := ⟨_, rfl, rfl, rfl⟩
theorem witness_FaultsArePrecise_invalidRegister :
    ∃ t, (start [(0, 0xA0), (2, 0x08)] 0 []).status = .running ∧ step (start [(0, 0xA0), (2, 0x08)] 0 []) = .next t ∧
      t.status = .faulted .invalidRegister := ⟨_, rfl, rfl, rfl⟩
theorem witness_FaultsArePrecise_invalidInstruction :
    ∃ t, State.reset.status = .running ∧ step State.reset = .next t ∧ t.status = .faulted .invalidInstruction :=
  ⟨_, rfl, rfl, rfl⟩
theorem witness_FaultsArePrecise_unsupportedALUOperation :
    ∃ t, (start [(0, 0x20)] 0 []).status = .running ∧ step (start [(0, 0x20)] 0 []) = .next t ∧
      t.status = .faulted .unsupportedALUOperation := ⟨_, rfl, rfl, rfl⟩
theorem witness_FaultsArePrecise_timeout :
    ∃ t, { State.reset with stepLimit := some 0 }.status = .running ∧
      step { State.reset with stepLimit := some 0 } = .next t ∧ t.status = .faulted .timeout := ⟨_, rfl, rfl, rfl⟩
theorem witness_CountCountsCompletedInstructions_completes :
    ∃ t, atLastFetch.status = .running ∧ step atLastFetch = .next t ∧ NotFaulted t :=
  ⟨_, rfl, rfl, notFaulted_running rfl⟩
theorem witness_CountCountsCompletedInstructions_faults :
    ∃ t, State.reset.status = .running ∧ step State.reset = .next t ∧ ¬ NotFaulted t :=
  ⟨_, rfl, rfl, fun h => h .invalidInstruction rfl⟩
theorem witness_StepKeepsInvariant : ∃ t, Inv atLastFetch ∧ step atLastFetch = .next t :=
  ⟨_, ⟨by decide, by decide, .inl rfl, rfl, fun _ h => by cases h⟩, rfl⟩
theorem witness_RunEndsWithinTheCeiling :
    { State.reset with stepLimit := some 3, count := 3 }.stepLimit = some 3 ∧ 3 ≤ 3 := by decide
theorem witness_OnlyCmpWritesFlags :
    ∃ t, exec (.add 0 7) { State.reset with flags := 0x04 } = .next t ∧ ∀ a b, Instr.add 0 7 ≠ .cmp a b :=
  ⟨_, rfl, fun _ _ h => by cases h⟩
theorem witness_OnlyJeqAndJneReadFlags :
    ∃ t, (∀ a, Instr.cmp 0 7 ≠ .jeq a) ∧ (∀ a, Instr.cmp 0 7 ≠ .jne a) ∧ exec (.cmp 0 7) State.reset = .next t ∧
      (∃ a b, Instr.cmp 0 7 = .cmp a b) ∧ (Instr.cmp 0 7).wellFormed = true ∧ (Instr.cmp 0 8).wellFormed = false :=
  ⟨_, fun _ h => (by cases h), fun _ h => (by cases h), rfl, ⟨_, _, rfl⟩, by decide, by decide⟩
theorem witness_NoInstructionReadsCountOrStepLimit : ∃ t, exec .hlt State.reset = .next t := ⟨_, rfl⟩
theorem witness_OnlyPrnAppendsToOutput :
    ∃ t u, exec (.prn 7) State.reset = .next t ∧ step (start [(0, 0x47)] 0 []) = .next u := ⟨_, _, rfl, rfl⟩
theorem witness_OnlyHltHalts :
    ∃ t, State.reset.status = .running ∧ exec (.jmp 7) State.reset = .next t ∧ (Instr.jmp 7).wellFormed = true ∧
      Instr.jmp 7 ≠ .hlt := ⟨_, rfl, rfl, by decide, by decide⟩
theorem witness_OnlyPushAndCallWriteMemory :
    ∃ t, Memory.wf State.reset.mem = true ∧ exec (.pop 0) State.reset = .next t ∧ (∀ a, Instr.pop 0 ≠ .push a) ∧
      (∀ a, Instr.pop 0 ≠ .call a) := ⟨_, rfl, rfl, fun _ h => (by cases h), fun _ h => (by cases h)⟩
theorem witness_OnlyDestinationRegistersAreWritten :
    ∃ t, exec (.pop 6) State.reset = .next t ∧ (6 : Byte).toNat ≠ (5 : Fin 8) ∧ (5 : Fin 8) ≠ 7 :=
  ⟨_, rfl, by decide, by decide⟩

/-- Operands at the boundary of [0,8), for every statement about one instruction. -/
theorem witness_operands : (7 : Byte).toNat = (7 : Fin 8) ∧ (0 : Byte).toNat = (0 : Fin 8) ∧ 8 ≤ (8 : Byte).toNat := by
  decide
/-- The three outcomes of a comparison, at neighbouring values. -/
theorem witness_CmpWritesTheComparisonToFlags :
    ((start [] 0 [(0, 128), (1, 128)]).reg 0).toNat = ((start [] 0 [(0, 128), (1, 128)]).reg 1).toNat ∧
    ((start [] 0 [(0, 128), (1, 127)]).reg 1).toNat < ((start [] 0 [(0, 128), (1, 127)]).reg 0).toNat ∧
    ((start [] 0 [(0, 127), (1, 128)]).reg 0).toNat < ((start [] 0 [(0, 127), (1, 128)]).reg 1).toNat := by decide
theorem witness_AfterCmpOneFlagIsSetAndDecidesTheBranch :
    ∃ t, (0 : Byte).toNat = (0 : Fin 8) ∧ (7 : Byte).toNat = (7 : Fin 8) ∧ (start [] 250 []).pc.toNat ≤ 253 ∧
      exec (.cmp 0 7) (start [] 250 []) = .next t ∧ t.pc.toNat ≤ 253 :=
  ⟨_, by decide, by decide, by decide, rfl, by decide⟩
theorem witness_PushStoresBelowTheStackPointer : Memory.wf (start [(255, 1)] 0 []).mem = true := by decide
theorem witness_PopLoadsFromTheStackPointer : (6 : Fin 8) ≠ 7 ∧ (7 : Fin 8) = 7 := by decide
theorem witness_CallPushesTheReturnAddressAndJumps :
    Memory.wf (start [] 253 []).mem = true ∧ (start [] 253 []).pc.toNat ≤ 253 := by decide
theorem witness_PushThenPopRestoresTheRegisters : Memory.wf State.reset.mem = true ∧ (7 : Byte).toNat = (7 : Fin 8) := by
  decide
theorem witness_CallThenRetReturnsAfterTheCall :
    ∃ t, Memory.wf State.reset.mem = true ∧ (0 : Byte).toNat = (0 : Fin 8) ∧ State.reset.pc.toNat ≤ 253 ∧
      exec (.call 0) State.reset = .next t ∧ t.sp = t.sp ∧ t.cell t.sp.toNat = t.cell t.sp.toNat :=
  ⟨_, by decide, by decide, by decide, rfl, rfl, rfl⟩
theorem witness_StackPointerWraps :
    Memory.wf (start [] 0 []).mem = true ∧ (7 : Byte).toNat = (7 : Fin 8) ∧ (start [] 0 [(7, 0x00)]).sp = 0x00 ∧
      (start [] 0 [(7, 0xFF)]).sp = 0xFF := by decide
theorem witness_NextFetchSeesTheStoredByte_push :
    ∃ t, Memory.wf (start [] 0 [(7, 3)]).mem = true ∧ (start [] 0 [(7, 3)]).pc.toNat ≤ 253 ∧ (Instr.push 0).wellFormed = true ∧
      exec (.push 0) (start [] 0 [(7, 3)]) = .next t ∧ t.pc.toNat ≤ 253 ∧ t.pc.toNat = pushAddress (start [] 0 [(7, 3)]) :=
  ⟨_, by decide, by decide, by decide, rfl, by decide, by decide⟩
theorem witness_NextFetchSeesTheStoredByte_call :
    ∃ t, Memory.wf (start [] 0 [(7, 3)]).mem = true ∧ (start [] 0 [(7, 3)]).pc.toNat ≤ 253 ∧ (Instr.call 7).wellFormed = true ∧
      exec (.call 7) (start [] 0 [(7, 3)]) = .next t ∧ t.pc.toNat ≤ 253 ∧ t.pc.toNat = pushAddress (start [] 0 [(7, 3)]) :=
  ⟨_, by decide, by decide, by decide, rfl, by decide, by decide⟩
theorem witness_branch_conditions : (0x01 : Byte).getLsbD 0 = true ∧ (0x06 : Byte).getLsbD 0 = false := by decide
theorem witness_PcStaysInRange :
    ∃ t, (start [] 253 []).pc.toNat ≤ 253 ∧ exec (.ldi 0 0) (start [] 253 []) = .next t ∧ t.pc.toNat = 256 :=
  ⟨_, by decide, rfl, by decide⟩
theorem witness_DecimalDigitsDenoteTheByte : 1 < (decimalDigits 10).length := by decide
theorem witness_StatusCodesAgree :
    (Status.faulted .timeout).stateCode = (Status.faulted .timeout).stateCode ∧
      (Status.faulted .timeout).causeCode = (Status.faulted .timeout).causeCode := by decide

end Sys2Proof.Tests
end

section
/-! PROOFS. The family of 10_state.md: the registers at reset (R24) and the output stream (R33). -/

namespace Sys2Proof.Machine

/-! ### The state that an instruction or a step answers -/

theorem exec_next_cases {i : Instr} {s t : State} (h : exec i s = .next t) :
    (∃ u, i.wellFormed = true ∧ Effect s i u ∧ t = completeCycle (opcodeOf i) s.pc u) ∨
      (∃ r, i.wellFormed = false ∧ firstInvalid i = some r ∧ t = raiseFault (.invalidRegister (opcodeOf i) r) s) := by
  have answer {u : State} (e : exec i s = .next u) : t = u := Host.Outcome.next.inj (h.symm.trans e)
  obtain ⟨u, hwf, heff, e⟩ | ⟨r, hwf, hr, e⟩ := exec_cases i s
  · exact .inl ⟨u, hwf, heff, answer e⟩
  · exact .inr ⟨r, hwf, hr, answer e⟩

/-- A step answers the same state, takes a fault before dispatch, or executes the instruction at pc. -/
theorem step_next_cases {s t : State} (h : step s = .next t) :
    (s.status ≠ .running ∧ t = s) ∨ (s.status = .running ∧ ∃ k, t = raiseFault k s) ∨
      (∃ i, Fetches s ∧ decode (bytesAtPc s) = .ok i ∧ exec i s = .next t) := by
  have answer {u : State} (e : step s = .next u) : t = u := Host.Outcome.next.inj (h.symm.trans e)
  obtain ⟨hr, e⟩ | ⟨hr, -, e⟩ | ⟨hr, -, -, e⟩ | ⟨⟨hr, -⟩, -, e⟩ | ⟨⟨hr, -⟩, -, e⟩ | ⟨i, hf, hd, e⟩ := step_cases s
  · exact .inl ⟨hr, answer e⟩
  · exact .inr (.inl ⟨hr, _, answer e⟩)
  · exact .inr (.inl ⟨hr, _, answer e⟩)
  · exact .inr (.inl ⟨hr, _, answer e⟩)
  · exact .inr (.inl ⟨hr, _, answer e⟩)
  · exact .inr (.inr ⟨i, hf, hd, e.symm.trans h⟩)

/-! ### The output stream (10_state.md R33) -/

/-- `OutputGrows s i t`: from `s` to `t` the output stream grew by the byte of the register that the PRN `i` names, or
not at all. -/
def OutputGrows (s : State) (i : Instr) (t : State) : Prop :=
  t.out = s.out ∨
    ∃ (a : Byte) (ra : Fin Config.registerCount), i = .prn a ∧ a.toNat = ra ∧ t.out = s.out ++ [s.reg ra]

theorem Effect.outputGrows {s t : State} {i : Instr} (h : Effect s i t) : OutputGrows s i t := by
  cases h with
  | prn ha => exact .inr ⟨_, _, rfl, ha, rfl⟩
  | _ => exact .inl rfl

/-- A completed instruction keeps the stream its handler left, and a fault keeps the stream of the cycle's start. -/
theorem exec_outputGrows {i : Instr} {s t : State} (h : exec i s = .next t) : OutputGrows s i t := by
  obtain ⟨u, -, heff, rfl⟩ | ⟨r, -, -, rfl⟩ := exec_next_cases h
  · simpa [OutputGrows] using heff.outputGrows
  · exact .inl (raiseFault_out _ s)

theorem OutputGrows.out_prefix {s t : State} {i : Instr} (h : OutputGrows s i t) : s.out <+: t.out := by
  obtain hsame | ⟨a, ra, -, -, hemit⟩ := h
  · exact hsame ▸ List.prefix_refl _
  · exact hemit ▸ List.prefix_append _ _

theorem step_out_prefix {s t : State} (h : step s = .next t) : s.out <+: t.out := by
  obtain ⟨-, rfl⟩ | ⟨-, k, rfl⟩ | ⟨i, -, -, hexec⟩ := step_next_cases h
  · exact List.prefix_refl _
  · exact List.prefix_refl _
  · exact (exec_outputGrows hexec).out_prefix

/-- Settles O31, from what an instruction's effect does to the output stream and the cases of a step. -/
theorem onlyPrnAppendsToOutput : Obligations.OnlyPrnAppendsToOutput := by
  refine ⟨rfl, fun i s t h => ?_, fun s t h => step_out_prefix h⟩
  obtain hsame | ⟨a, ra, hi, ha, hemit⟩ := exec_outputGrows h
  · exact ⟨[], by simpa using hsame, fun hne => absurd rfl hne⟩
  · exact ⟨[s.reg ra], hemit, fun _ => ⟨a, ra, hi, ha, rfl⟩⟩

/-! ### The registers at reset (10_state.md R24) -/

/-- Settles O1, one register at a time: there are eight. -/
theorem registersAtReset : Obligations.RegistersAtReset := by
  unfold Obligations.RegistersAtReset
  decide

end Sys2Proof.Machine
end

section
/-! PROOFS. The family of 20_memory.md: the bounds-checked accesses (R51). -/

namespace Sys2Proof.Machine

/-! ### A state whose memory is another's after one write

The premise speaks of the memories alone, so the rules also serve a handler that changes registers beside the store. -/

theorem State.cell_of_mem_eq_write {s t : State} {a : Nat} {v : Byte} (hwf : Memory.wf s.mem = true)
    (h : t.mem = Memory.write s.mem a v) (c : Nat) : t.cell c = if c = a then v else s.cell c := by
  rw [State.cell, h, Memory.read_write hwf, State.cell]

theorem State.cell_stored {s t : State} {a : Nat} {v : Byte} (hwf : Memory.wf s.mem = true)
    (h : t.mem = Memory.write s.mem a v) : t.cell a = v := by
  rw [State.cell_of_mem_eq_write hwf h, if_pos rfl]

theorem keepsMem_of_mem_eq_write {s t : State} {a : Nat} {v : Byte} (hwf : Memory.wf s.mem = true)
    (h : t.mem = Memory.write s.mem a v) : KeepsMem s t [a] := fun c hc => by
  rw [State.cell_of_mem_eq_write hwf h, if_neg (List.mem_singleton.not.1 hc)]

/-! ### The bounds-checked accesses (20_memory.md R51) -/

/-- Settles O6: in range by the rules of a single write, and out of range by the bounds check. -/
theorem memoryPrimitivesAreBoundsChecked : Obligations.MemoryPrimitivesAreBoundsChecked := by
  intro s a v hwf
  constructor
  case left =>
    intro ha
    exact ⟨memRead_inRange s ha, _, memWrite_inRange s v ha, rfl, Memory.write_wf hwf ha,
      State.cell_stored hwf rfl, keepsMem_of_mem_eq_write hwf rfl⟩
  case right =>
    intro ha
    exact ⟨memRead_outOfRange s ha, memWrite_outOfRange s v ha⟩

end Sys2Proof.Machine
end

section
/-! PROOFS. The family of 30_encoding.md: the fields and the class of every opcode byte (R76, R77). -/

namespace Sys2Proof.Machine

/-! ### Each route decodes the bytes of its table and raises its own error for every other byte (R77) -/

theorem decodeAlu_table_cases (w : Window) :
    (InAluTable w.ir ∧ ∃ i, decodeAlu w = .ok i) ∨
      (¬ InAluTable w.ir ∧ decodeAlu w = .error .unsupportedALUOperation) := by
  obtain ⟨hir, hd⟩ | ⟨hir, hd⟩ | ⟨hir, hd⟩ | ⟨hAdd, hMul, hCmp, hd⟩ := decodeAlu_cases w
  case inr.inr.inr => exact .inr ⟨by simpa only [InAluTable, not_or] using ⟨hAdd, hMul, hCmp⟩, hd⟩
  all_goals exact .inl ⟨by simp [InAluTable, hir], _, hd⟩

theorem decodeNonAlu_table_cases (w : Window) :
    (InDispatchTable w.ir ∧ ∃ i, decodeNonAlu w = .ok i) ∨
      (¬ InDispatchTable w.ir ∧ decodeNonAlu w = .error .invalidInstruction) := by
  obtain ⟨hir, hd⟩ | ⟨hir, hd⟩ | ⟨hir, hd⟩ | ⟨hir, hd⟩ | ⟨hir, hd⟩ | ⟨hir, hd⟩ | ⟨hir, hd⟩ | ⟨hir, hd⟩ | ⟨hir, hd⟩ |
    ⟨hir, hd⟩ | ⟨hnone, hd⟩ := decodeNonAlu_cases w
  case inr.inr.inr.inr.inr.inr.inr.inr.inr.inr =>
    exact .inr ⟨by simpa only [InDispatchTable, not_or] using hnone, hd⟩
  all_goals exact .inl ⟨by simp [InDispatchTable, hir], _, hd⟩

/-! ### The two errors of the decoder: the ALU bit chooses the route, and the route's table decides -/

theorem decode_unsupported_iff (w : Window) :
    decode w = .error .unsupportedALUOperation ↔ isAlu w.ir = true ∧ ¬ InAluTable w.ir := by
  cases halu : isAlu w.ir with
  | true =>
    rw [decode_alu halu]
    obtain ⟨hin, i, hd⟩ | ⟨hout, hd⟩ := decodeAlu_table_cases w
    · simp [hd, hin]
    · simp [hd, hout]
  | false =>
    rw [decode_nonAlu halu]
    obtain ⟨-, i, hd⟩ | ⟨-, hd⟩ := decodeNonAlu_table_cases w <;> simp [hd]

theorem decode_invalid_iff (w : Window) :
    decode w = .error .invalidInstruction ↔ isAlu w.ir = false ∧ ¬ InDispatchTable w.ir := by
  cases halu : isAlu w.ir with
  | true =>
    rw [decode_alu halu]
    obtain ⟨-, i, hd⟩ | ⟨-, hd⟩ := decodeAlu_table_cases w <;> simp [hd]
  | false =>
    rw [decode_nonAlu halu]
    obtain ⟨hin, i, hd⟩ | ⟨hout, hd⟩ := decodeNonAlu_table_cases w
    · simp [hd, hin]
    · simp [hd, hout]

/-! ### The opcode bytes (R76, R77) -/

/-- Counting a range row by row: it makes the 256 opcode bytes 8 short counts, each of one value of bits 7 to 5. -/
theorem countP_range_mul (p : Nat → Bool) (m n : Nat) :
    (List.range (m * n)).countP p = ((List.range m).map fun k => (List.range n).countP fun j => p (k * n + j)).sum := by
  induction m with
  | zero => simp
  | succ m ih =>
    rw [Nat.succ_mul, List.range_add, List.countP_append, List.countP_map, ih, List.range_succ, List.map_append,
      List.sum_append]
    simp [Function.comp_def]

/-- Settles O9: the table by each opcode's own law, the illegal bytes by the two errors of the decoder, and how many
bytes are in each illegal class by counting over all 256, row by row. -/
theorem everyOpcodeByteHasItsClass : Obligations.EveryOpcodeByteHasItsClass := by
  refine ⟨fun a b => ?table, fun ir a b => ⟨decode_unsupported_iff ⟨ir, a, b⟩, decode_invalid_iff ⟨ir, a, b⟩⟩,
    ?unsupported, ?invalid⟩
  case table =>
    exact ⟨decode_ADD a b, decode_MUL a b, decode_CMP a b, decode_HLT a b, decode_RET a b, decode_PUSH a b,
      decode_POP a b, decode_PRN a b, decode_CALL a b, decode_JMP a b, decode_JEQ a b, decode_JNE a b, decode_LDI a b⟩
  case unsupported => exact (countP_range_mul _ 8 32).trans (by decide)
  case invalid => exact (countP_range_mul _ 8 32).trans (by decide)

/-- Settles O8, one opcode of the table at a time: there are 13. -/
theorem opcodeFieldsMatchTheTable : Obligations.OpcodeFieldsMatchTheTable := by
  unfold Obligations.OpcodeFieldsMatchTheTable
  decide

end Sys2Proof.Machine
end

section
/-! PROOFS. The family of 41_alu.md: ADD (R121), MUL (R122) and an ALU opcode outside the table (R124). -/

namespace Sys2Proof.Machine

/-! ### A fault keeps all but status and the fault record (60_exceptions.md R210) -/

theorem raiseFault_keepsState (k : Raise) (s : State) : FaultsKeepingState k.kind s (raiseFault k s) :=
  ⟨rfl, rfl, rfl, rfl, rfl, rfl, rfl, rfl⟩

theorem wellFormed_eq_false_iff (i : Instr) :
    i.wellFormed = false ↔ ∃ r ∈ i.registerOperands, Config.registerCount ≤ r.toNat := by
  simp [Instr.wellFormed]

/-- A register operand outside [0,8), in whatever place it stands, ends the instruction with InvalidRegister. -/
theorem exec_invalidRegister {i : Instr} {r : Byte} (hmem : r ∈ i.registerOperands)
    (hr : Config.registerCount ≤ r.toNat) (s : State) :
    ∃ t, exec i s = .next t ∧ FaultsKeepingState .invalidRegister s t := by
  have hill : i.wellFormed = false := (wellFormed_eq_false_iff i).2 ⟨r, hmem, hr⟩
  obtain ⟨u, hwf, -⟩ | ⟨q, -, -, hexec⟩ := exec_cases i s
  · exact absurd hwf (by simp [hill])
  · exact ⟨_, hexec, raiseFault_keepsState _ s⟩

theorem exec_invalidRegister_of_pair {i : Instr} {a b : Byte} (hops : i.registerOperands = [a, b])
    (h : Config.registerCount ≤ a.toNat ∨ Config.registerCount ≤ b.toNat) (s : State) :
    ∃ t, exec i s = .next t ∧ FaultsKeepingState .invalidRegister s t := by
  obtain ha | hb := h
  · exact exec_invalidRegister (by simp [hops]) ha s
  · exact exec_invalidRegister (by simp [hops]) hb s

/-! ### An instruction whose handler writes one register and leaves pc to the loop -/

theorem instrLength_le (ir : Byte) : instrLength ir ≤ 4 := by
  unfold instrLength operandCount
  omega

/-- The premise on pc's range in `AdvancesPc` leaves room for every length, so the 9-bit sum does not wrap. -/
theorem completeCycle_advancesPc {ir : Byte} (hpc : setsPc ir = false) (s t : State) :
    AdvancesPc s (completeCycle ir s.pc t) (instrLength ir) := fun hle =>
  completeCycle_advances hpc rfl (by have := instrLength_le ir; omega) t

/-- The register reads what was written, and the frame is everything else that is neither pc nor count. -/
theorem exec_writesRegister {i : Instr} {s : State} {ra : Fin Config.registerCount} {v : Byte}
    (heff : Effect s i (s.setReg ra v)) (hpc : setsPc (opcodeOf i) = false) {n : Nat}
    (hlen : instrLength (opcodeOf i) = n) :
    ∃ t, exec i s = .next t ∧ t.reg ra = v ∧ KeepsRegs s t [ra] ∧ KeepsMem s t [] ∧ t.flags = s.flags ∧
      t.out = s.out ∧ KeepsControl s t ∧ AdvancesPc s t n := by
  refine ⟨_, exec_of_effect heff, ?result, ?regs, ?mem, ?flags, ?out, ?control,
    hlen ▸ completeCycle_advancesPc hpc s _⟩
  case result => rw [completeCycle_reg, State.reg_setReg_same]
  case regs =>
    intro q hq
    rw [completeCycle_reg, State.reg_setReg_other s v (List.mem_singleton.not.1 hq)]
  case mem => intro c _; rw [completeCycle_cell, State.setReg_cell]
  case flags => rw [completeCycle_flags, State.setReg_flags]
  case out => rw [completeCycle_out, State.setReg_out]
  case control => simp [KeepsControl]

/-! ### ADD and MUL (R121, R122) -/

/-- Settles O35: ADD writes the wrapped sum to register a, and either operand outside [0,8) is raised. -/
theorem addWritesTheSumModulo256 : Obligations.AddWritesTheSumModulo256 := by
  refine fun a b s => ⟨rfl, fun ra rb ha hb => ?completes, fun hinvalid => ?faults⟩
  case completes =>
    obtain ⟨t, hexec, hresult, hframe⟩ := exec_writesRegister (Effect.add (s := s) ha hb) setsPc_ADD instrLength_ADD
    exact ⟨t, hexec, by rw [hresult, wrapByte_toNat], hframe⟩
  case faults => exact exec_invalidRegister_of_pair (i := .add a b) rfl hinvalid s

/-- Settles O36: MUL writes the wrapped product to register a, and either operand outside [0,8) is raised. -/
theorem mulWritesTheProductModulo256 : Obligations.MulWritesTheProductModulo256 := by
  refine fun a b s => ⟨rfl, fun ra rb ha hb => ?completes, fun hinvalid => ?faults⟩
  case completes =>
    obtain ⟨t, hexec, hresult, hframe⟩ := exec_writesRegister (Effect.mul (s := s) ha hb) setsPc_MUL instrLength_MUL
    exact ⟨t, hexec, by rw [hresult, wrapByte_toNat], hframe⟩
  case faults => exact exec_invalidRegister_of_pair (i := .mul a b) rfl hinvalid s

/-! ### An ALU opcode outside the table (R124) -/

theorem step_of_unsupported {s : State} (h : Fetches s)
    (hd : decode (bytesAtPc s) = .error .unsupportedALUOperation) :
    step s = .next (raiseFault (.unsupportedALUOperation (bytesAtPc s).ir) s) := by
  obtain ⟨hrun, hbelow, hpc⟩ := h
  exact step_of_raise hrun ((fetchAndDecode_inRange hbelow hpc).trans (decodeWindow_unsupported hd))

/-- Settles O19: the decoder answers its ALU error from the opcode byte alone, and the fault is taken before dispatch. -/
theorem unsupportedAluOpcodeFaults : Obligations.UnsupportedAluOpcodeFaults := by
  intro s hfetch hbit5 hout
  have hd : decode (bytesAtPc s) = .error .unsupportedALUOperation := (decode_unsupported_iff _).2 ⟨hbit5, hout⟩
  exact ⟨_, step_of_unsupported hfetch hd, raiseFault_keepsState _ s⟩

end Sys2Proof.Machine
end

section
/-! PROOFS. The family of 42_stack_and_calls.md: RET (R143). -/

namespace Sys2Proof.Machine

/-- Where the handler alone controls pc, the end of the cycle leaves the pc it set (40_execution_loop.md R107). -/
theorem completeCycle_pc_of_setsPc {ir : Byte} (h : setsPc ir = true) (p : PcWord) (t : State) :
    (completeCycle ir p t).pc = t.pc := by
  rw [completeCycle_pc, if_pos h]

/-- Settles O42: the stack byte becomes pc, which the end of the cycle leaves to the handler, and sp is incremented;
the only register written is sp. -/
theorem retPopsThePc : Obligations.RetPopsThePc := by
  refine fun s => ⟨rfl, _, exec_of_effect .ret, ?pc, ?sp, ?regs, ?mem, ?flags, ?out, ?control⟩
  case pc =>
    rw [completeCycle_pc_of_setsPc (ir := opcodeOf .ret) setsPc_RET, State.incSp_pc, State.setPc_pc, pcOfByte_toNat]
  case sp => rw [completeCycle_sp, State.sp_incSp, State.setPc_sp, incByte_toNat]
  case regs =>
    intro q hq
    rw [completeCycle_reg, State.reg_incSp_other _ (List.mem_singleton.not.1 hq), State.setPc_reg]
  case mem => intro c _; rw [completeCycle_cell, State.incSp_cell, State.setPc_cell]
  case flags => rw [completeCycle_flags, State.incSp_flags, State.setPc_flags]
  case out => rw [completeCycle_out, State.incSp_out, State.setPc_out]
  case control => simp [KeepsControl]

end Sys2Proof.Machine
end

section
/-! PROOFS. The family of 43_control_flow.md: JMP (R160). -/

namespace Sys2Proof.Machine

/-- An instruction that only sets pc leaves it at the value set, and the frame is everything else but count. -/
theorem exec_setsOnlyPc {i : Instr} {s : State} {p : PcWord} (heff : Effect s i (s.setPc p))
    (hpc : setsPc (opcodeOf i) = true) :
    ∃ t, exec i s = .next t ∧ t.pc = p ∧ KeepsRegs s t [] ∧ KeepsMem s t [] ∧ t.flags = s.flags ∧ t.out = s.out ∧
      KeepsControl s t := by
  refine ⟨_, exec_of_effect heff, ?pc, ?regs, ?mem, ?flags, ?out, ?control⟩
  case pc => rw [completeCycle_pc_of_setsPc hpc, State.setPc_pc]
  case regs => intro q _; rw [completeCycle_reg, State.setPc_reg]
  case mem => intro c _; rw [completeCycle_cell, State.setPc_cell]
  case flags => rw [completeCycle_flags, State.setPc_flags]
  case out => rw [completeCycle_out, State.setPc_out]
  case control => simp [KeepsControl]

/-- Settles O47: the register's byte becomes pc, zero-extended, and an operand outside [0,8) is raised. -/
theorem jmpSetsThePc : Obligations.JmpSetsThePc := by
  refine fun a s => ⟨rfl, fun ra ha => ?completes, fun hinvalid => ?faults⟩
  case completes =>
    obtain ⟨t, hexec, hpc, hframe⟩ := exec_setsOnlyPc (Effect.jmp (s := s) ha) setsPc_JMP
    exact ⟨t, hexec, by rw [hpc, pcOfByte_toNat], hframe⟩
  case faults => exact exec_invalidRegister (List.mem_singleton_self a) hinvalid s

end Sys2Proof.Machine
end

section
/-! PROOFS. The family of 44_halt_load_output.md: LDI (R181). -/

namespace Sys2Proof.Machine

/-- Settles O52: the handler writes the immediate to register a and leaves pc to the loop, and a register operand outside
[0,8) is raised; the immediate is no register operand, so it is never checked. -/
theorem ldiWritesTheImmediate : Obligations.LdiWritesTheImmediate := by
  refine fun a imm s => ⟨rfl, fun ra ha => ?completes, fun hinvalid => ?faults⟩
  case completes => exact exec_writesRegister (.ldi ha) setsPc_LDI instrLength_LDI
  case faults => exact exec_invalidRegister (i := .ldi a imm) (List.mem_singleton_self a) hinvalid s

end Sys2Proof.Machine
end

section
/-! PROOFS. The family of 60_exceptions.md: an opcode in neither table (R205). -/

namespace Sys2Proof.Machine

theorem step_of_invalid {s : State} (h : Fetches s) (hd : decode (bytesAtPc s) = .error .invalidInstruction) :
    step s = .next (raiseFault (.invalidInstruction (bytesAtPc s).ir) s) := by
  obtain ⟨hrun, hbelow, hpc⟩ := h
  exact step_of_raise hrun ((fetchAndDecode_inRange hbelow hpc).trans (decodeWindow_invalid hd))

/-- Settles O20: with bit 5 clear the opcode byte goes to the dispatch table, whose miss is the decoder's own error, and
the fault is taken before dispatch. -/
theorem opcodeInNeitherTableFaults : Obligations.OpcodeInNeitherTableFaults := by
  intro s hfetch hbit5 hout
  have hd : decode (bytesAtPc s) = .error .invalidInstruction := (decode_invalid_iff _).2 ⟨hbit5, hout⟩
  exact ⟨_, step_of_invalid hfetch hd, raiseFault_keepsState _ s⟩

end Sys2Proof.Machine
end

section
/-! PROOFS. The family of 30_encoding.md: the decoder and the encoder undo each other (R70 to R75). -/

namespace Sys2Proof

/-! ### The encoder -/

/-- The opcode byte's fields agree with the encoding, for every instruction (30_encoding.md R76). -/
theorem opcodeFields (i : Instr) : Laws.OpcodeFields.Statement i := by
  cases i with
  | hlt => exact Laws.OpcodeFields.hlt
  | ldi a imm => exact Laws.OpcodeFields.ldi a imm
  | prn a => exact Laws.OpcodeFields.prn a
  | add a b => exact Laws.OpcodeFields.add a b
  | mul a b => exact Laws.OpcodeFields.mul a b
  | push a => exact Laws.OpcodeFields.push a
  | pop a => exact Laws.OpcodeFields.pop a
  | ret => exact Laws.OpcodeFields.ret
  | call a => exact Laws.OpcodeFields.call a
  | cmp a b => exact Laws.OpcodeFields.cmp a b
  | jmp a => exact Laws.OpcodeFields.jmp a
  | jeq a => exact Laws.OpcodeFields.jeq a
  | jne a => exact Laws.OpcodeFields.jne a

theorem encode_headD (i : Instr) : (encode i).headD 0 = opcodeOf i := by
  obtain ⟨hhead, -⟩ := opcodeFields i
  rw [List.headD_eq_head?_getD, hhead, Option.getD_some]

theorem length_encode (i : Instr) : (encode i).length = instrLength (opcodeOf i) := by
  obtain ⟨-, hlen, -⟩ := opcodeFields i
  exact hlen.symm

/-! ### Decoding an encoding -/

theorem decode_windowOf_encode (i : Instr) (rest : List Byte) : decode (windowOf (encode i ++ rest)) = .ok i := by
  cases i with
  | hlt => exact decode_HLT _ _
  | ldi a imm => exact decode_LDI a imm
  | prn a => exact decode_PRN a _
  | add a b => exact decode_ADD a b
  | mul a b => exact decode_MUL a b
  | push a => exact decode_PUSH a _
  | pop a => exact decode_POP a _
  | ret => exact decode_RET _ _
  | call a => exact decode_CALL a _
  | cmp a b => exact decode_CMP a b
  | jmp a => exact decode_JMP a _
  | jeq a => exact decode_JEQ a _
  | jne a => exact decode_JNE a _

/-- Settles O10: each opcode decodes by its own law, whatever the bytes after the instruction are. -/
theorem decodeOfEncodeIsTheInstruction : Obligations.DecodeOfEncodeIsTheInstruction :=
  fun i rest => ⟨decode_windowOf_encode i rest, length_encode i⟩

/-! ### Encoding what a window decodes to -/

theorem encode_of_decode {w : Window} {i : Instr} (h : decode w = .ok i) :
    encode i = [w.ir, w.a, w.b].take (instrLength w.ir) := by
  obtain ⟨hir, rfl⟩ | ⟨hir, rfl⟩ | ⟨hir, rfl⟩ | ⟨hir, rfl⟩ | ⟨hir, rfl⟩ | ⟨hir, rfl⟩ | ⟨hir, rfl⟩ | ⟨hir, rfl⟩ |
    ⟨hir, rfl⟩ | ⟨hir, rfl⟩ | ⟨hir, rfl⟩ | ⟨hir, rfl⟩ | ⟨hir, rfl⟩ := decode_ok_cases h
  all_goals rw [hir]; rfl

/-- Settles O11, by the cases of a window that decodes. -/
theorem encodeOfDecodeIsTheBytes : Obligations.EncodeOfDecodeIsTheBytes := fun _ _ h => encode_of_decode h

theorem opcodeOf_of_decode {w : Window} {i : Instr} (h : decode w = .ok i) : opcodeOf i = w.ir := by
  rw [← encode_headD, encode_of_decode h, instrLength, Nat.add_comm, List.take_succ_cons, List.headD_cons]

/-! ### Bytes beyond the instruction's length (30_encoding.md R75) -/

/-- The bytes of the window that belong to the instruction. -/
def Window.used (w : Window) : List Byte := [w.ir, w.a, w.b].take (instrLength w.ir)

theorem windowOf_used_append (w : Window) :
    windowOf (w.used ++ [w.ir, w.a, w.b].drop (instrLength w.ir)) = w := by
  rw [Window.used, List.take_append_drop]; rfl

theorem used_congr {w w' : Window} (hir : w.ir = w'.ir) (ha : 2 ≤ instrLength w.ir → w.a = w'.a)
    (hb : 3 ≤ instrLength w.ir → w.b = w'.b) : w.used = w'.used := by
  unfold Window.used
  rw [← hir]
  generalize instrLength w.ir = n at ha hb
  match n with
  | 0 => rfl
  | 1 => rfl
  | 2 => rw [ha (by omega)]; rfl
  | n + 3 => rw [ha (by omega), hb (by omega)]

/-- Two windows whose used bytes agree decode to the same instruction: it is what those bytes encode. -/
theorem decode_ok_of_used {w w' : Window} {i : Instr} (hused : w.used = w'.used) (h : decode w = .ok i) :
    decode w' = .ok i := by
  have hbytes : encode i = w'.used := (encode_of_decode h).trans hused
  rw [← windowOf_used_append w', ← hbytes]
  exact decode_windowOf_encode i _

/-- Settles O12: an instruction is what the used bytes encode, and an error depends on the opcode byte alone. -/
theorem bytesBeyondTheLengthAreNotLookedAt : Obligations.BytesBeyondTheLengthAreNotLookedAt := by
  intro w w' hir ha hb
  cases h : decode w with
  | ok i => exact (decode_ok_of_used (used_congr hir ha hb) h).symm
  | error e =>
    cases e with
    | unsupportedALUOperation =>
      rw [Machine.decode_unsupported_iff, hir] at h
      exact ((Machine.decode_unsupported_iff w').2 h).symm
    | invalidInstruction =>
      rw [Machine.decode_invalid_iff, hir] at h
      exact ((Machine.decode_invalid_iff w').2 h).symm

/-- Settles O13, each word by the law of its opcode or its class. -/
theorem writtenOutWordsDecode : Obligations.WrittenOutWordsDecode := by
  refine ⟨decode_ADD _ _, decode_CMP _ _, decode_PUSH _ _, decode_RET _ _, decode_JEQ _ _, decode_LDI _ _,
    (Machine.decode_invalid_iff _).2 ⟨?_, ?_⟩, (Machine.decode_unsupported_iff _).2 ⟨?_, ?_⟩⟩
  · decide
  · simp [Machine.InDispatchTable]
  · decide
  · simp [Machine.InAluTable]

end Sys2Proof
end

section
/-! PROOFS. What an instruction does to each element of the state and what it depends on (10_state.md R21, R27, R32;
20_memory.md R52; 40_execution_loop.md R106, R111). -/

namespace Sys2Proof.Machine

/-! ### What the handler of an instruction does to each element -/

theorem Effect.fault_eq {s u : State} {i : Instr} (h : Effect s i u) : u.fault = s.fault := by
  cases h <;> rfl

theorem Effect.count_eq {s u : State} {i : Instr} (h : Effect s i u) : u.count = s.count := by
  cases h <;> rfl

theorem Effect.stepLimit_eq {s u : State} {i : Instr} (h : Effect s i u) : u.stepLimit = s.stepLimit := by
  cases h <;> rfl

theorem Effect.status_cases {s u : State} {i : Instr} (h : Effect s i u) :
    (i = .hlt ∧ u.status = .halted) ∨ (i ≠ .hlt ∧ u.status = s.status) := by
  cases h with
  | hlt => exact .inl ⟨rfl, rfl⟩
  | _ => exact .inr ⟨nofun, rfl⟩

theorem Effect.notFaulted {s u : State} {i : Instr} (h : Effect s i u) (hs : NotFaulted s) : NotFaulted u := by
  obtain ⟨-, hu⟩ | ⟨-, hu⟩ := h.status_cases
  · intro kind; rw [hu]; exact nofun
  · intro kind; rw [hu]; exact hs kind

theorem Effect.flags_cases {s u : State} {i : Instr} (h : Effect s i u) :
    (∃ x y, (∃ a b, i = .cmp a b) ∧ u.flags = compareFlags x y) ∨ ((∀ a b, i ≠ .cmp a b) ∧ u.flags = s.flags) := by
  cases h with
  | cmp ha hb => exact .inl ⟨_, _, ⟨_, _, rfl⟩, rfl⟩
  | _ => exact .inr ⟨nofun, rfl⟩

theorem Effect.mem_cases {s u : State} {i : Instr} (h : Effect s i u) :
    (((∃ a, i = .push a) ∨ (∃ a, i = .call a)) ∧ ∃ v, u.mem = Memory.write s.mem (pushAddress s) v) ∨
      u.mem = s.mem := by
  cases h with
  | push ha => exact .inl ⟨.inl ⟨_, rfl⟩, _, rfl⟩
  | call ha => exact .inl ⟨.inr ⟨_, rfl⟩, _, rfl⟩
  | _ => exact .inr rfl

theorem keepsMem_of_mem_eq {s t : State} (h : t.mem = s.mem) (stored : List Nat) : KeepsMem s t stored :=
  fun c _ => by rw [State.cell, State.cell, h]

/-- A handler keeps Memory in canonical form, since a stack address is a byte (20_memory.md R53). -/
theorem Effect.mem_wf {s u : State} {i : Instr} (h : Effect s i u) (hwf : Memory.wf s.mem = true) :
    Memory.wf u.mem = true := by
  obtain ⟨-, v, hu⟩ | hu := h.mem_cases
  · rw [hu]; exact Memory.write_wf hwf (byte_inRange _)
  · rw [hu]; exact hwf

/-! ### Well-formed instructions complete (40_execution_loop.md R106) -/

/-- Settles O21, from the rule of the first invalid operand: the opcode recorded is the encoding's first byte. -/
theorem illFormedInstructionRaisesInvalidRegister : Obligations.IllFormedInstructionRaisesInvalidRegister := by
  intro i s r hr
  rw [encode_headD, exec_of_firstInvalid hr s]
  rfl

/-- Settles O22: a well-formed instruction has an effect, and no effect sets status to Faulted. -/
theorem wellFormedInstructionNeverFaults : Obligations.WellFormedInstructionNeverFaults := by
  intro i s hwf hs
  obtain ⟨u, heff⟩ := effect_of_wellFormed hwf s
  refine ⟨_, exec_of_effect heff, fun kind => ?_⟩
  rw [completeCycle_status]
  exact heff.notFaulted hs kind

/-! ### What only certain instructions write -/

/-- Settles O28: among the effects only that of CMP writes flags, and a fault keeps them. -/
theorem onlyCmpWritesFlags : Obligations.OnlyCmpWritesFlags := by
  intro i s t h hcmp
  obtain ⟨u, -, heff, rfl⟩ | ⟨r, -, -, rfl⟩ := exec_next_cases h
  · obtain ⟨-, -, ⟨a, b, hi⟩, -⟩ | ⟨-, hflags⟩ := heff.flags_cases
    · exact absurd hi (hcmp a b)
    · rw [completeCycle_flags, hflags]
  · exact raiseFault_flags _ s

/-- Settles O32: only the effect of HLT is Halted, every other one keeps status, and a fault is Faulted. -/
theorem onlyHltHalts : Obligations.OnlyHltHalts := by
  intro i s t hs h
  obtain ⟨u, -, heff, rfl⟩ | ⟨r, hwf, hr, rfl⟩ := exec_next_cases h
  · rw [completeCycle_status]
    obtain ⟨rfl, hu⟩ | ⟨hi, hu⟩ := heff.status_cases
    · simp [hu]
    · simp [hu, hs, hi]
  · have hi : i ≠ .hlt := by rintro rfl; cases hr
    simp [hwf, hi]

/-- Settles O33: an effect leaves the memory it found, or, if it is PUSH's or CALL's, that memory after a write at the
decremented sp. -/
theorem onlyPushAndCallWriteMemory : Obligations.OnlyPushAndCallWriteMemory := by
  intro i s t hwf h
  rw [← pushAddress_eq]
  obtain ⟨u, -, heff, rfl⟩ | ⟨r, -, -, rfl⟩ := exec_next_cases h
  · obtain ⟨hi, v, hu⟩ | hu := heff.mem_cases
    · refine ⟨fun hpush hcall => ?_, keepsMem_of_mem_eq_write hwf ((completeCycle_mem _ _ u).trans hu)⟩
      obtain ⟨a, hi⟩ | ⟨a, hi⟩ := hi
      · exact absurd hi (hpush a)
      · exact absurd hi (hcall a)
    · have hmem := (completeCycle_mem (opcodeOf i) s.pc u).trans hu
      exact ⟨fun _ _ => hmem, keepsMem_of_mem_eq hmem _⟩
  · exact ⟨fun _ _ => rfl, keepsMem_of_mem_eq rfl _⟩

theorem ne_of_operand_ne {a : Byte} {ra r : Fin Config.registerCount} (ha : a.toNat = ra) (h : a.toNat ≠ r) :
    r ≠ ra := fun e => h (e ▸ ha)

/-- Settles O34, one effect at a time: each is register writes at its destination and at R7, or none. -/
theorem onlyDestinationRegistersAreWritten : Obligations.OnlyDestinationRegistersAreWritten := by
  intro i s t r h hr
  obtain ⟨u, -, heff, rfl⟩ | ⟨_, -, -, rfl⟩ := exec_next_cases h
  · rw [completeCycle_reg]
    cases heff with
    | hlt => exact State.halt_reg s r
    | ldi ha => exact State.reg_setReg_other s _ (ne_of_operand_ne ha hr)
    | prn ha => exact State.emit_reg s _ r
    | add ha hb => exact State.reg_setReg_other s _ (ne_of_operand_ne ha hr)
    | mul ha hb => exact State.reg_setReg_other s _ (ne_of_operand_ne ha hr)
    | push ha => exact State.reg_decSp_other s hr
    | pop ha =>
      obtain ⟨hra, hsp⟩ := hr
      exact (State.reg_incSp_other _ hsp).trans (State.reg_setReg_other s _ (ne_of_operand_ne ha hra))
    | ret => exact State.reg_incSp_other _ hr
    | call ha => exact State.reg_decSp_other s hr
    | cmp ha hb => exact State.setFlags_reg s _ r
    | jmp ha => exact State.setPc_reg s _ r
    | jeq ha => exact State.setPc_reg s _ r
    | jne ha => exact State.setPc_reg s _ r
  · exact raiseFault_reg _ s r

/-! ### What no instruction but JEQ and JNE reads: flags (10_state.md R27)

Two runs from states that differ in flags alone. -/

/-- A handler that reads no flags does the same from any value of them: CMP writes over it, and every other form leaves
it. -/
theorem Effect.setFlags {s u : State} {i : Instr} (h : Effect s i u) (v : Byte) (hjeq : ∀ a, i ≠ .jeq a)
    (hjne : ∀ a, i ≠ .jne a) :
    ((∃ a b, i = .cmp a b) ∧ Effect (s.setFlags v) i u) ∨
      ((¬ ∃ a b, i = .cmp a b) ∧ Effect (s.setFlags v) i (u.setFlags v)) := by
  cases h with
  | hlt => exact .inr ⟨nofun, .hlt⟩
  | ldi ha => exact .inr ⟨nofun, .ldi ha⟩
  | prn ha => exact .inr ⟨nofun, .prn ha⟩
  | add ha hb => exact .inr ⟨nofun, .add ha hb⟩
  | mul ha hb => exact .inr ⟨nofun, .mul ha hb⟩
  | push ha => exact .inr ⟨nofun, .push ha⟩
  | pop ha => exact .inr ⟨nofun, .pop ha⟩
  | ret => exact .inr ⟨nofun, .ret⟩
  | call ha => exact .inr ⟨nofun, .call ha⟩
  | cmp ha hb => exact .inl ⟨⟨_, _, rfl⟩, .cmp ha hb⟩
  | jmp ha => exact .inr ⟨nofun, .jmp ha⟩
  | jeq ha => exact absurd rfl (hjeq _)
  | jne ha => exact absurd rfl (hjne _)

theorem completeCycle_setFlags (ir : Byte) (p : PcWord) (u : State) (v : Byte) :
    completeCycle ir p (u.setFlags v) = (completeCycle ir p u).setFlags v := by
  unfold completeCycle; split <;> rfl

/-- Settles O29: the effect from the other flags is the same but for flags, and so is the fault of an ill-formed
instruction. -/
theorem onlyJeqAndJneReadFlags : Obligations.OnlyJeqAndJneReadFlags := by
  intro i s t v hjeq hjne h
  obtain ⟨u, hwf, heff, rfl⟩ | ⟨r, hwf, hr, rfl⟩ := exec_next_cases h
  · obtain ⟨hcmp, heff'⟩ | ⟨hcmp, heff'⟩ := heff.setFlags v hjeq hjne
    · exact ⟨_, exec_of_effect heff', rfl, fun _ => rfl, fun hn => absurd ⟨hcmp, hwf⟩ hn⟩
    · have hexec := (exec_of_effect heff').trans
        (congrArg Host.Outcome.next (completeCycle_setFlags (opcodeOf i) s.pc u v))
      exact ⟨_, hexec, rfl, fun hc => absurd hc.1 hcmp, fun _ => rfl⟩
  · refine ⟨_, exec_of_firstInvalid hr (s.setFlags v), rfl, fun ⟨_, hc⟩ => ?_, fun _ => rfl⟩
    exact absurd hc (by simp [hwf])

/-! ### What no instruction reads: count and STEP_LIMIT (10_state.md R32)

Two runs from states that differ in these two alone. -/

/-- The state with other values of count and STEP_LIMIT. -/
def State.withBudget (s : State) (c : Nat) (limit : Option Nat) : State := { s with count := c, stepLimit := limit }

theorem Effect.withBudget {s u : State} {i : Instr} (h : Effect s i u) (c : Nat) (limit : Option Nat) :
    Effect (s.withBudget c limit) i (u.withBudget c limit) := by
  cases h with
  | hlt => exact .hlt
  | ldi ha => exact .ldi ha
  | prn ha => exact .prn ha
  | add ha hb => exact .add ha hb
  | mul ha hb => exact .mul ha hb
  | push ha => exact .push ha
  | pop ha => exact .pop ha
  | ret => exact .ret
  | call ha => exact .call ha
  | cmp ha hb => exact .cmp ha hb
  | jmp ha => exact .jmp ha
  | jeq ha => exact .jeq ha
  | jne ha => exact .jne ha

theorem completeCycle_withBudget (ir : Byte) (p : PcWord) (u : State) (c : Nat) (limit : Option Nat) :
    completeCycle ir p (u.withBudget c limit) = (completeCycle ir p u).withBudget (c + 1) limit := by
  unfold completeCycle; split <;> rfl

/-- Settles O30: the effect from other values of count and STEP_LIMIT is the same but for them, and so is the fault,
whose record holds no count. -/
theorem noInstructionReadsCountOrStepLimit : Obligations.NoInstructionReadsCountOrStepLimit := by
  intro i s t c limit h
  obtain ⟨u, -, heff, rfl⟩ | ⟨r, -, hr, rfl⟩ := exec_next_cases h
  · refine ⟨_, (exec_of_effect (heff.withBudget c limit)).trans
      (congrArg Host.Outcome.next (completeCycle_withBudget (opcodeOf i) s.pc u c limit)), rfl, ?_, rfl⟩
    rw [completeCycle_count, heff.count_eq]
    simp only [State.withBudget]
    omega
  · exact ⟨_, exec_of_firstInvalid hr (s.withBudget c limit), rfl, Nat.add_comm _ _, rfl⟩

end Sys2Proof.Machine
end

section
/-! PROOFS. The families of 40_execution_loop.md and 60_exceptions.md: one cycle, the fault it comes to and in which
order, and what a fault records (R100 to R109, R207 to R210). -/

namespace Sys2Proof.Machine

/-! ### Steps and runs -/

/-- Settles O14: each case of a step is a next state, and each case of an instruction is. -/
theorem everyStepAnswersANextState : Obligations.EveryStepAnswersANextState := by
  intro s
  obtain ⟨-, e⟩ | ⟨-, -, e⟩ | ⟨-, -, -, e⟩ | ⟨-, -, e⟩ | ⟨-, -, e⟩ | ⟨i, -, -, e⟩ := step_cases s
  case inr.inr.inr.inr.inr =>
    obtain ⟨t, -, -, hexec⟩ | ⟨r, -, -, hexec⟩ := exec_cases i s
    · exact ⟨_, e.trans hexec⟩
    · exact ⟨_, e.trans hexec⟩
  all_goals exact ⟨_, e⟩

theorem run_succ {s t : State} (h : step s = .next t) (k : Nat) :
    Host.Core.run core (k + 1) s = Host.Core.run core k t := by
  have hstep : core.step s = .next t := h
  simp only [Host.Core.run, hstep]

theorem run_of_not_running {s : State} (h : s.status ≠ .running) (k : Nat) : Host.Core.run core k s = .next s := by
  induction k with
  | zero => rfl
  | succ k ih => rw [run_succ (step_of_not_running h), ih]

/-- Settles O15, by induction on the number of steps, each of which is the identity. -/
theorem terminalStatesNeverChange : Obligations.TerminalStatesNeverChange := fun _ => run_of_not_running

/-! ### The branches of a cycle -/

/-- Settles O16: below the ceiling and with its window in range the cycle comes to the decoder. -/
theorem stepRunsTheDecodedInstruction : Obligations.StepRunsTheDecodedInstruction :=
  fun _ _ hrun hbelow hpc hd => step_of_decode ⟨hrun, hbelow, hpc⟩ hd

/-- Settles O17: the ceiling check is the first of a cycle. -/
theorem ceilingRaisesTimeout : Obligations.CeilingRaisesTimeout :=
  fun _ _ hrun hlimit hcount => step_of_raise hrun (fetchAndDecode_timeout hlimit hcount)

/-- The address that a fetch past the end records fits in FADDR's 9 bits. -/
theorem faddr_toNat (p : PcWord) : (BitVec.ofNat 9 (max 256 p.toNat)).toNat = max 256 p.toNat := by
  have := p.isLt
  rw [BitVec.toNat_ofNat, Nat.mod_eq_of_lt (by omega)]

/-- Settles O18: the first of the three reads that is out of range is raised. -/
theorem fetchPastTheEndRaisesAddressOutOfRange : Obligations.FetchPastTheEndRaisesAddressOutOfRange := by
  intro s hrun hbelow hpc
  exact ⟨_, step_of_raise hrun (fetchAndDecode_outOfRange hbelow hpc), raiseFault_keepsState _ s, rfl,
    faddr_toNat s.pc, rfl, rfl, rfl⟩

/-! ### The fault that a running cycle comes to -/

/-- `Raises s k`: the running cycle of `s` raises `k`, at the ceiling, at the fetch, at the decoder or at the operand
check, where no check before it does. -/
inductive Raises (s : State) : Raise → Prop where
  | timeout {limit : Nat} (hlimit : s.stepLimit = some limit) (hcount : limit ≤ s.count) : Raises s .timeout
  | addressOutOfRange (hbelow : BelowCeiling s) (hpc : 254 ≤ s.pc.toNat) :
      Raises s (.addressOutOfRange (max 256 s.pc.toNat))
  | unsupportedALUOperation (hf : Fetches s) (hd : decode (bytesAtPc s) = .error .unsupportedALUOperation) :
      Raises s (.unsupportedALUOperation (bytesAtPc s).ir)
  | invalidInstruction (hf : Fetches s) (hd : decode (bytesAtPc s) = .error .invalidInstruction) :
      Raises s (.invalidInstruction (bytesAtPc s).ir)
  | invalidRegister {i : Instr} {r : Byte} (hf : Fetches s) (hd : decode (bytesAtPc s) = .ok i)
      (hr : firstInvalid i = some r) : Raises s (.invalidRegister (opcodeOf i) r)

/-- `Completes s t`: the running cycle of `s` completes its instruction and leaves `t`. -/
def Completes (s t : State) : Prop :=
  ∃ i u, Fetches s ∧ decode (bytesAtPc s) = .ok i ∧ i.wellFormed = true ∧ Effect s i u ∧
    t = completeCycle (opcodeOf i) s.pc u

/-- A running cycle takes the fault it raises, or it completes an instruction. -/
theorem step_running_cases {s t : State} (hrun : s.status = .running) (h : step s = .next t) :
    (∃ k, Raises s k ∧ t = raiseFault k s) ∨ Completes s t := by
  have answer {u : State} (e : step s = .next u) : t = u := Host.Outcome.next.inj (h.symm.trans e)
  obtain ⟨hr, -⟩ | ⟨-, ⟨limit, hl, hc⟩, e⟩ | ⟨-, hb, hpc, e⟩ | ⟨hf, hd, e⟩ | ⟨hf, hd, e⟩ | ⟨i, hf, hd, e⟩ :=
    step_cases s
  · exact absurd hrun hr
  · exact .inl ⟨_, .timeout hl hc, answer e⟩
  · exact .inl ⟨_, .addressOutOfRange hb hpc, answer e⟩
  · exact .inl ⟨_, .unsupportedALUOperation hf hd, answer e⟩
  · exact .inl ⟨_, .invalidInstruction hf hd, answer e⟩
  · obtain ⟨u, hwf, heff, ht⟩ | ⟨r, -, hr, ht⟩ := exec_next_cases (e.symm.trans h)
    · exact .inr ⟨i, u, hf, hd, hwf, heff, ht⟩
    · exact .inl ⟨_, .invalidRegister hf hd hr, ht⟩

theorem not_notFaulted_raiseFault (k : Raise) (s : State) : ¬ NotFaulted (raiseFault k s) := fun h => h _ rfl

theorem notFaulted_of_running {s : State} (h : s.status = .running) : NotFaulted s := by
  intro kind; rw [h]; exact nofun

theorem Completes.notFaulted {s t : State} (h : Completes s t) : NotFaulted t := by
  obtain ⟨i, u, ⟨hrun, -⟩, -, -, heff, rfl⟩ := h
  intro kind
  rw [completeCycle_status]
  exact heff.notFaulted (notFaulted_of_running hrun) kind

theorem Completes.count {s t : State} (h : Completes s t) : t.count = s.count + 1 := by
  obtain ⟨i, u, -, -, -, heff, rfl⟩ := h
  rw [completeCycle_count, heff.count_eq]

/-- Settles O25: a completed cycle counts once, and a fault keeps count. -/
theorem countCountsCompletedInstructions : Obligations.CountCountsCompletedInstructions := by
  intro s t hrun h
  obtain ⟨k, -, rfl⟩ | hcomp := step_running_cases hrun h
  · exact ⟨fun hn => absurd hn (not_notFaulted_raiseFault k s), fun _ => raiseFault_count k s⟩
  · exact ⟨fun _ => hcomp.count, fun hn => absurd hcomp.notFaulted hn⟩

/-! ### The order of priority (60_exceptions.md R208) -/

theorem belowCeiling_any {s : State} (h : BelowCeiling s) :
    s.stepLimit.any (fun limit => decide (limit ≤ s.count)) = false := by
  cases hl : s.stepLimit with
  | none => rfl
  | some limit => simpa using h limit hl

/-- A cycle that fetches passes the first two checks. -/
theorem Fetches.passes {s : State} (h : Fetches s) :
    s.stepLimit.any (fun limit => decide (limit ≤ s.count)) = false ∧ ¬ 254 ≤ s.pc.toNat := by
  obtain ⟨-, hbelow, hpc⟩ := h
  exact ⟨belowCeiling_any hbelow, by omega⟩

theorem Raises.firstFault_eq {s : State} {k : Raise} (h : Raises s k) : firstFault s = some k.kind := by
  cases h with
  | timeout hlimit hcount => simp [firstFault, hlimit, hcount, Raise.kind]
  | addressOutOfRange hbelow hpc => simp [firstFault, belowCeiling_any hbelow, hpc, Raise.kind]
  | unsupportedALUOperation hf hd => simp [firstFault, hf.passes, hd, Raise.kind]
  | invalidInstruction hf hd => simp [firstFault, hf.passes, hd, Raise.kind]
  | @invalidRegister i r hf hd hr =>
    have hill : i.wellFormed = false := by
      rw [Bool.eq_false_iff, Ne, wellFormed_iff_firstInvalid, hr]; exact nofun
    simp [firstFault, hf.passes, hd, hill, Raise.kind]

theorem Completes.firstFault_eq {s t : State} (h : Completes s t) : firstFault s = none := by
  obtain ⟨i, u, hf, hd, hwf, -⟩ := h
  simp [firstFault, hf.passes, hd, hwf]

/-- Settles O23: the fault a cycle raises is the first that applies, and none applies to a cycle that completes. -/
theorem firstFaultInPriorityOrderDecides : Obligations.FirstFaultInPriorityOrderDecides := by
  intro s hrun
  obtain ⟨t, h⟩ := everyStepAnswersANextState s
  refine ⟨t, h, ?_⟩
  obtain ⟨k, hk, rfl⟩ | hcomp := step_running_cases hrun h
  · rw [hk.firstFault_eq]
    exact ⟨fun kind e => by rw [raiseFault_status, Option.some.inj e], nofun⟩
  · rw [hcomp.firstFault_eq]
    exact ⟨nofun, fun _ => hcomp.notFaulted⟩

/-! ### What a fault records (60_exceptions.md R200, R209) -/

/-- The register operands of a decoded instruction are the window's operand bytes, or the first of them, or none. -/
theorem registerOperands_prefix {w : Window} {i : Instr} (h : decode w = .ok i) :
    i.registerOperands <+: [w.a, w.b] := by
  obtain ⟨-, rfl⟩ | ⟨-, rfl⟩ | ⟨-, rfl⟩ | ⟨-, rfl⟩ | ⟨-, rfl⟩ | ⟨-, rfl⟩ | ⟨-, rfl⟩ | ⟨-, rfl⟩ | ⟨-, rfl⟩ | ⟨-, rfl⟩ |
    ⟨-, rfl⟩ | ⟨-, rfl⟩ | ⟨-, rfl⟩ := decode_ok_cases h
  all_goals simp [Instr.registerOperands]

/-- The operand that is recorded, read off the window: its first byte outside [0,8). -/
theorem firstInvalid_of_decode {w : Window} {i : Instr} {r : Byte} (h : decode w = .ok i)
    (hr : firstInvalid i = some r) : r = if 8 ≤ w.a.toNat then w.a else w.b := by
  have hfind := (registerOperands_prefix h).find?_eq_some hr
  by_cases ha : 8 ≤ w.a.toNat
  · simpa [ha] using hfind.symm
  · by_cases hb : 8 ≤ w.b.toNat
    · simpa [ha, hb] using hfind.symm
    · simp [ha, hb] at hfind

theorem faddr_eq (p : PcWord) : BitVec.ofNat 9 (max 256 p.toNat) = if p.toNat ≤ 256 then 256 else p := by
  apply BitVec.eq_of_toNat_eq
  rw [faddr_toNat]
  split
  · exact Nat.max_eq_left ‹_›
  · exact Nat.max_eq_right (by omega)

/-- Settles O24: the status names the raise's kind, the frame is that of fault entry, and each raise records its
fields. -/
theorem faultsArePrecise : Obligations.FaultsArePrecise := by
  intro s t kind hrun h hkind
  obtain ⟨k, hk, rfl⟩ | hcomp := step_running_cases hrun h
  · obtain rfl : k.kind = kind := Status.faulted.inj hkind
    refine ⟨raiseFault_keepsState k s, ?_⟩
    rw [raiseFault_fault]
    cases hk with
    | timeout hlimit hcount => rfl
    | addressOutOfRange hbelow hpc => simp only [Raise.record, Raise.kind, faddr_eq]; rfl
    | unsupportedALUOperation hf hd => rfl
    | invalidInstruction hf hd => rfl
    | invalidRegister hf hd hr =>
      rw [opcodeOf_of_decode hd, firstInvalid_of_decode hd hr]
      rfl
  · exact absurd hkind (hcomp.notFaulted kind)

end Sys2Proof.Machine
end

section
/-! PROOFS. The invariant of every state that a run reaches, pc's range, and the end of a run under a ceiling
(10_state.md R25 to R32; 43_control_flow.md R163; 70_reset_and_hazards.md R230, R236). -/

namespace Sys2Proof.Machine

/-! ### Reset -/

/-- Settles O2: each element has its reset value, and empty memory reads the reset byte. -/
theorem otherStateAtReset : Obligations.OtherStateAtReset := ⟨fun _ => rfl, rfl, rfl, rfl, rfl, rfl, rfl⟩

theorem inv_reset : Inv State.reset where
  memory := rfl
  pc := by decide
  flags := .inl rfl
  record := rfl
  count := nofun

/-- Settles O3: at reset Memory is empty, pc, flags and the fault record are 0, and there is no ceiling. -/
theorem resetMeetsInvariant : Obligations.ResetMeetsInvariant := inv_reset

/-! ### The range of pc (10_state.md R25, R26) -/

theorem length_encode_le (i : Instr) : (encode i).length ≤ 3 := by
  cases i <;> simp [encode]

theorem pcPlus_toNat_of_le {p : PcWord} (hp : p.toNat ≤ 253) {n : Nat} (hn : n ≤ 3) :
    (pcPlus p n).toNat = p.toNat + n := pcPlus_toNat (by omega)

/-- A handler that sets pc sets it to a byte or to the address after its two bytes. -/
theorem Effect.target_lt {s u : State} {i : Instr} (h : Effect s i u) (hp : s.pc.toNat ≤ 253)
    (hpc : setsPc (opcodeOf i) = true) : u.pc.toNat < 256 := by
  have target (v : Byte) : (pcOfByte v).toNat < 256 := by rw [pcOfByte_toNat]; exact v.isLt
  have next : (pcPlus s.pc 2).toNat < 256 := by rw [pcPlus_toNat_of_le hp (by omega)]; omega
  obtain ⟨-, -, -, hset⟩ := opcodeFields i
  rw [hset] at hpc
  cases h with
  | ret => exact target _
  | call ha => exact target _
  | jmp ha => exact target _
  | jeq ha =>
    rw [State.setPc_pc]
    split
    · exact target _
    · exact next
  | jne ha =>
    rw [State.setPc_pc]
    split
    · exact next
    · exact target _
  | _ => cases hpc

/-- Where a completed instruction leaves pc: at a target, or its length further on. -/
theorem Effect.completed_pc {s u : State} {i : Instr} (h : Effect s i u) (hp : s.pc.toNat ≤ 253) :
    (completeCycle (opcodeOf i) s.pc u).pc.toNat ≤ 256 ∧
      (setsPc (opcodeOf i) = true → (completeCycle (opcodeOf i) s.pc u).pc.toNat < 256) := by
  cases hpc : setsPc (opcodeOf i) with
  | true =>
    have := h.target_lt hp hpc
    rw [completeCycle_pc_of_setsPc hpc]
    exact ⟨this.le, fun _ => this⟩
  | false =>
    have hlen := length_encode_le i
    rw [length_encode] at hlen
    refine ⟨?_, nofun⟩
    rw [completeCycle_advances hpc rfl (by omega)]
    omega

theorem setsPc_of_transfer {i : Instr}
    (h : i = .ret ∨ ∃ a, i = .jmp a ∨ i = .jeq a ∨ i = .jne a ∨ i = .call a) : setsPc (opcodeOf i) = true := by
  obtain rfl | ⟨a, rfl | rfl | rfl | rfl⟩ := h
  · exact setsPc_RET
  · exact setsPc_JMP
  · exact setsPc_JEQ
  · exact setsPc_JNE
  · exact setsPc_CALL

/-- Settles O50: a completed instruction's pc by its effect, and a fault keeps the pc of the cycle. -/
theorem pcStaysInRange : Obligations.PcStaysInRange := by
  intro i s t hp h
  obtain ⟨u, -, heff, rfl⟩ | ⟨r, -, -, rfl⟩ := exec_next_cases h
  · obtain ⟨hle, hlt⟩ := heff.completed_pc hp
    exact ⟨hle, fun hi => hlt (setsPc_of_transfer hi)⟩
  · rw [raiseFault_pc]
    exact ⟨by omega, fun _ => by omega⟩

/-! ### Every cycle keeps the invariant -/

theorem compareFlags_of_eq {x y : Byte} (h : x.toNat = y.toNat) : compareFlags x y = 0x01 := if_pos h

theorem compareFlags_of_gt {x y : Byte} (h : y.toNat < x.toNat) : compareFlags x y = 0x02 := by
  rw [compareFlags, if_neg (by omega), if_pos h]

theorem compareFlags_of_lt {x y : Byte} (h : x.toNat < y.toNat) : compareFlags x y = 0x04 := by
  rw [compareFlags, if_neg (by omega), if_neg (by omega)]

theorem compareFlags_cases (x y : Byte) :
    compareFlags x y = 0x01 ∨ compareFlags x y = 0x02 ∨ compareFlags x y = 0x04 := by
  obtain h | h | h := Nat.lt_trichotomy x.toNat y.toNat
  · exact .inr (.inr (compareFlags_of_lt h))
  · exact .inl (compareFlags_of_eq h)
  · exact .inr (.inl (compareFlags_of_gt h))

theorem Effect.flagsLegal {s u : State} {i : Instr} (h : Effect s i u) (hs : FlagsLegal s) : FlagsLegal u := by
  obtain ⟨x, y, -, hu⟩ | ⟨-, hu⟩ := h.flags_cases
  · rw [FlagsLegal, hu]; exact .inr (compareFlags_cases x y)
  · rw [FlagsLegal, hu]; exact hs

theorem faultRecordLegal_of_not_faulted {s : State} (h : NotFaulted s) :
    FaultRecordLegal s ↔ s.fault = FaultRecord.zero := by
  unfold FaultRecordLegal
  cases hs : s.status with
  | running => rfl
  | halted => rfl
  | faulted kind => exact absurd hs (h kind)

/-- A completed cycle keeps the invariant: it writes no fault record, and below the ceiling there is room for one more
instruction. -/
theorem Completes.inv {s t : State} (h : Completes s t) (hs : Inv s) : Inv t := by
  have hnot := h.notFaulted
  have hcount := h.count
  obtain ⟨i, u, ⟨hrun, hbelow, hp⟩, -, -, heff, rfl⟩ := h
  refine ⟨?memory, (heff.completed_pc hp).1, ?flags, ?record, ?count⟩
  case memory => rw [completeCycle_mem]; exact heff.mem_wf hs.memory
  case flags => rw [FlagsLegal, completeCycle_flags]; exact heff.flagsLegal hs.flags
  case record =>
    rw [faultRecordLegal_of_not_faulted hnot, completeCycle_fault, heff.fault_eq]
    exact (faultRecordLegal_of_not_faulted (notFaulted_of_running hrun)).1 hs.record
  case count =>
    intro limit hl
    rw [completeCycle_stepLimit, heff.stepLimit_eq] at hl
    have := hbelow limit hl
    omega

theorem opcodeOf_inTable (i : Instr) : InAluTable (opcodeOf i) ∨ InDispatchTable (opcodeOf i) := by
  cases i <;> simp [opcodeOf, InAluTable, InDispatchTable]

theorem firstInvalid_ge {i : Instr} {r : Byte} (h : firstInvalid i = some r) : 8 ≤ r.toNat := by
  have hp := List.find?_some (p := fun q : Byte => decide (8 ≤ q.toNat)) h
  simpa using hp

/-- The record that fault entry writes is what its kind records. -/
theorem Raises.faultRecordLegal {s : State} {k : Raise} (h : Raises s k) (hs : Inv s) :
    FaultRecordLegal (raiseFault k s) := by
  cases h with
  | @timeout limit hlimit hcount =>
    have hle := hs.count limit hlimit
    exact ⟨by rw [raiseFault_stepLimit, raiseFault_count, hlimit, Nat.le_antisymm hcount hle], rfl⟩
  | addressOutOfRange hbelow hpc =>
    refine ⟨hpc, ?_⟩
    rw [raiseFault_fault, max_eq_left hs.pc]
    rfl
  | unsupportedALUOperation hf hd =>
    obtain ⟨halu, htable⟩ := (decode_unsupported_iff _).1 hd
    exact ⟨halu, htable, rfl⟩
  | invalidInstruction hf hd =>
    obtain ⟨halu, htable⟩ := (decode_invalid_iff _).1 hd
    exact ⟨halu, htable, rfl⟩
  | @invalidRegister i r hf hd hr => exact ⟨opcodeOf_inTable i, firstInvalid_ge hr, rfl⟩

theorem Raises.inv {s : State} {k : Raise} (h : Raises s k) (hs : Inv s) : Inv (raiseFault k s) :=
  ⟨hs.memory, hs.pc, hs.flags, h.faultRecordLegal hs, hs.count⟩

/-- Settles O26: a stopped CORE keeps its state, and a running cycle takes a fault or completes an instruction. -/
theorem stepKeepsInvariant : Obligations.StepKeepsInvariant := by
  intro s t hs h
  by_cases hrun : s.status = .running
  · obtain ⟨k, hk, rfl⟩ | hcomp := step_running_cases hrun h
    · exact hk.inv hs
    · exact hcomp.inv hs
  · obtain rfl : t = s := Host.Outcome.next.inj (h.symm.trans (step_of_not_running hrun))
    exact hs

/-! ### The end of a run under a ceiling (70_reset_and_hazards.md R236) -/

theorem Completes.stepLimit {s t : State} (h : Completes s t) : t.stepLimit = s.stepLimit := by
  obtain ⟨i, u, -, -, -, heff, rfl⟩ := h
  rw [completeCycle_stepLimit, heff.stepLimit_eq]

theorem Completes.belowCeiling {s t : State} (h : Completes s t) : BelowCeiling s := by
  obtain ⟨i, u, ⟨-, hbelow, -⟩, -⟩ := h
  exact hbelow

/-- A step ends the run, or found it ended, without counting, or it completes an instruction. -/
theorem step_ends_or_completes {s t : State} (h : step s = .next t) :
    (t.status ≠ .running ∧ t.count = s.count) ∨ Completes s t := by
  by_cases hrun : s.status = .running
  · obtain ⟨k, -, rfl⟩ | hcomp := step_running_cases hrun h
    · exact .inl ⟨nofun, raiseFault_count k s⟩
    · exact .inr hcomp
  · obtain rfl : t = s := Host.Outcome.next.inj (h.symm.trans (step_of_not_running hrun))
    exact .inl ⟨hrun, rfl⟩

/-- With `k` instructions left under the ceiling the run ends within `k + 1` cycles: each one that does not end it
completes one of the `k`. -/
theorem run_ends_of_left (k : Nat) : ∀ s : State, s.stepLimit = some (s.count + k) →
    ∃ t, Host.Core.run core (k + 1) s = .next t ∧ t.status ≠ .running ∧ t.count ≤ s.count + k := by
  induction k with
  | zero =>
    intro s hlimit
    obtain ⟨t, h⟩ := everyStepAnswersANextState s
    obtain ⟨hend, hcount⟩ | hcomp := step_ends_or_completes h
    · exact ⟨t, run_succ h 0, hend, hcount.le⟩
    · exact absurd (hcomp.belowCeiling _ hlimit) (Nat.lt_irrefl _)
  | succ k ih =>
    intro s hlimit
    obtain ⟨t, h⟩ := everyStepAnswersANextState s
    rw [run_succ h]
    obtain ⟨hend, hcount⟩ | hcomp := step_ends_or_completes h
    · exact ⟨t, run_of_not_running hend _, hend, by omega⟩
    · have hleft : s.count + (k + 1) = t.count + k := by rw [hcomp.count]; omega
      rw [hleft] at hlimit ⊢
      exact ih t (hcomp.stepLimit.trans hlimit)

/-- Settles O27, by induction on how many instructions the ceiling leaves. -/
theorem runEndsWithinTheCeiling : Obligations.RunEndsWithinTheCeiling := by
  intro s limit hlimit hcount
  obtain ⟨k, rfl⟩ := Nat.exists_eq_add_of_le hcount
  rw [show s.count + k + 1 - s.count = k + 1 by omega]
  exact run_ends_of_left k s hlimit

end Sys2Proof.Machine
end

section
/-! PROOFS. Memory's canonical form, the launch of an image, and the launch of a program file (20_memory.md R50;
30_encoding.md R91; 60_exceptions.md R202, R218). -/

namespace Sys2Proof.Machine

/-! ### Canonical memories that read alike (20_memory.md R50) -/

theorem Memory.read_head (k : Nat) (v : Byte) (m : List Host.Cell) : Memory.read ((k, v) :: m) k = v := by
  rw [Memory.read_cons, if_neg (Nat.lt_irrefl k), if_pos rfl]

/-- The first cell of a canonical memory is read off it: another one that reads alike there has no later first cell. -/
theorem Memory.not_wfFrom_of_read_eq {k : Nat} {v : Byte} {m m' : List Host.Cell} (hv : v ≠ Config.memoryResetByte)
    (heq : Memory.read ((k, v) :: m) k = Memory.read m' k) : ¬ Memory.wfFrom (k + 1) m' = true := fun h => by
  rw [Memory.read_head, Memory.read_below h (Nat.lt_succ_self k)] at heq
  exact hv heq

theorem Memory.wfFrom_ext {lo : Nat} {m m' : List Host.Cell} (h : Memory.wfFrom lo m = true)
    (h' : Memory.wfFrom lo m' = true) (heq : ∀ a < 256, Memory.read m a = Memory.read m' a) : m = m' := by
  induction m generalizing lo m' with
  | nil =>
    cases m' with
    | nil => rfl
    | cons c' m' =>
      obtain ⟨k', v'⟩ := c'
      obtain ⟨-, hk', hv', -⟩ := Memory.wfFrom_cons.1 h'
      exact absurd rfl (Memory.not_wfFrom_of_read_eq hv' (heq k' hk').symm)
  | cons c m ih =>
    obtain ⟨k, v⟩ := c
    obtain ⟨-, hk, hv, htail⟩ := Memory.wfFrom_cons.1 h
    cases m' with
    | nil => exact absurd rfl (Memory.not_wfFrom_of_read_eq hv (heq k hk))
    | cons c' m' =>
      obtain ⟨k', v'⟩ := c'
      obtain ⟨-, hk', hv', htail'⟩ := Memory.wfFrom_cons.1 h'
      obtain hlt | rfl | hgt := Nat.lt_trichotomy k k'
      · exact absurd (Memory.wfFrom_cons.2 ⟨hlt, hk', hv', htail'⟩) (Memory.not_wfFrom_of_read_eq hv (heq k hk))
      · have hval : v = v' := by simpa only [Memory.read_head] using heq k hk
        have hrest : m = m' := by
          refine ih htail htail' fun a ha => ?_
          by_cases hak : a < k + 1
          · rw [Memory.read_below htail hak, Memory.read_below htail' hak]
          · have := heq a ha
            rwa [Memory.read_cons, Memory.read_cons, if_neg (by omega), if_neg (by omega), if_neg (by omega),
              if_neg (by omega)] at this
        rw [hval, hrest]
      · exact absurd (Memory.wfFrom_cons.2 ⟨hgt, hk, hv, htail⟩) (Memory.not_wfFrom_of_read_eq hv' (heq k' hk').symm)

/-- Settles O7, by induction on the cells: the first cells agree, since each is read off the memory, and so do the
rests. -/
theorem canonicalMemoriesThatReadAlikeAreEqual : Obligations.CanonicalMemoriesThatReadAlikeAreEqual :=
  fun _ _ h h' heq => Memory.wfFrom_ext h h' heq

/-! ### Launch (60_exceptions.md R218) -/

/-- What an image loaded into empty memory reads as, at any address. -/
theorem Memory.read_load_image {image : List Byte} (h : image.length ≤ Config.memorySize) (a : Nat) :
    Memory.read (Memory.load [] 0 image) a = image.getD a Config.memoryResetByte := by
  by_cases ha : a < Config.memorySize
  · rw [Memory.read_load rfl 0 image a ha, if_pos (Nat.zero_le a)]; rfl
  · rw [Memory.read_past (Memory.load_wf (m := []) rfl 0 image) (Nat.not_lt.1 ha),
      List.getD_eq_default _ _ (by omega)]

/-- Settles O4: the image is loaded into the empty memory of reset, and the invariant is that of reset but for Memory
and STEP_LIMIT. -/
theorem launchLoadsImageAtZero : Obligations.LaunchLoadsImageAtZero := by
  refine fun limit image => ⟨fun hle => ?launches, fun hlong => if_neg (Nat.not_le.2 hlong)⟩
  refine ⟨_, if_pos hle, ?inv, rfl, Memory.read_load_image hle, rfl⟩
  exact
    { memory := Memory.load_wf inv_reset.memory 0 image
      pc := inv_reset.pc
      flags := inv_reset.flags
      record := inv_reset.record
      count := fun n _ => Nat.zero_le n }

/-! ### Program files (30_encoding.md R91) -/

theorem parseLines_of_spells (lines : List (List Char × Option Byte)) (h : ∀ p ∈ lines, LineSpells p.1 p.2) :
    parseLines (lines.map Prod.fst) = some (lines.filterMap Prod.snd) := by
  induction lines with
  | nil => rfl
  | cons p lines ih =>
    obtain ⟨line, value⟩ := p
    have hline := lineContent_of_spells (h (line, value) (by simp))
    have hrest := ih fun q hq => h q (by simp [hq])
    rw [List.map_cons, parseLines, hrest]
    cases value with
    | none => rw [if_pos hline]; rfl
    | some v => rw [if_neg hline.1, hline.2]; rfl

theorem parseLines_none {lines : List (List Char)} {line : List Char} (hmem : line ∈ lines)
    (hne : lineContent line ≠ []) (hbad : parseByte (lineContent line) = none) : parseLines lines = none := by
  induction lines with
  | nil => cases hmem
  | cons l lines ih =>
    rw [parseLines]
    obtain rfl | hmem := List.mem_cons.1 hmem
    · rw [if_neg hne, hbad]
    · rw [ih hmem]
      cases parseByte (lineContent l) with
      | none => exact ite_self _
      | some v => exact ite_self _

theorem launchFile_of_lines {lines : List (List Char × Option Byte)} {text : List Char}
    (hsplit : splitLines text = lines.map Prod.fst) (h : ∀ p ∈ lines, LineSpells p.1 p.2) (limit : Option Nat) :
    launchFile limit (some text) = launch limit (lines.filterMap Prod.snd) := by
  simp only [launchFile, hsplit, parseLines_of_spells lines h]

/-! ### The text of an image, one byte a line (00_scope.md R8) -/

theorem getLsbD_toNat (v : Byte) (k : Nat) : (v.getLsbD k).toNat = v.toNat / 2 ^ k % 2 := by
  rw [BitVec.getLsbD, Nat.toNat_testBit]

/-- A byte as the sum of its bits, most significant first. -/
theorem foldl_binaryDigits (v : Byte) :
    (binaryDigits v).foldl (fun n c => 2 * n + if c = '1' then 1 else 0) 0 = v.toNat := by
  have digit (b : Bool) : (if (if b then '1' else '0') = '1' then 1 else 0) = b.toNat := by cases b <;> rfl
  have step (k : Nat) : 2 * (v.toNat / 2 ^ (k + 1)) + v.toNat / 2 ^ k % 2 = v.toNat / 2 ^ k := by
    rw [pow_succ, ← Nat.div_div_eq_div_mul, Nat.div_add_mod]
  have first : 2 * 0 + v.toNat / 2 ^ 7 % 2 = v.toNat / 2 ^ 7 := by
    have h7 := step 7
    rwa [Nat.div_eq_of_lt (show v.toNat < 2 ^ (7 + 1) from v.isLt)] at h7
  simp only [binaryDigits, List.map_cons, List.map_nil, List.foldl_cons, List.foldl_nil, digit, getLsbD_toNat]
  rw [first, step 6, step 5, step 4, step 3, step 2, step 1, step 0, pow_zero, Nat.div_one]

theorem binaryDigits_mem {v : Byte} {c : Char} (h : c ∈ binaryDigits v) : c = '0' ∨ c = '1' := by
  obtain ⟨b, -, rfl⟩ := List.mem_map.1 h
  cases b
  · exact .inl rfl
  · exact .inr rfl

theorem newline_not_mem_binaryDigits (v : Byte) : '\n' ∉ binaryDigits v := fun h => by
  obtain h | h := binaryDigits_mem h
  · exact absurd h (by decide)
  · exact absurd h (by decide)

theorem lineSpells_binaryDigits (v : Byte) : LineSpells (binaryDigits v) (some v) :=
  ⟨newline_not_mem_binaryDigits v, [], binaryDigits v, [], [], by simp, nofun, nofun, .inl rfl,
    fun _ => binaryDigits_mem, by simp [binaryDigits], by simp [binaryDigits], (foldl_binaryDigits v).symm⟩

theorem lineSpells_nil : LineSpells [] none :=
  ⟨nofun, [], [], [], [], rfl, nofun, nofun, .inl rfl, nofun, rfl⟩

/-- The lines of an image's text, each with the byte it spells: one line a byte, and the empty line after the last line
feed. -/
def programLines (image : List Byte) : List (List Char × Option Byte) :=
  image.map (fun v => (binaryDigits v, some v)) ++ [([], none)]

theorem splitLines_programText (image : List Byte) :
    splitLines (programText image) = (programLines image).map Prod.fst := by
  induction image with
  | nil => rfl
  | cons v image ih =>
    have htext : programText (v :: image) = binaryDigits v ++ '\n' :: programText image := by simp [programText]
    rw [htext, splitLines_cons_line _ _ (newline_not_mem_binaryDigits v), ih]
    rfl

theorem lineSpells_of_mem_programLines {image : List Byte} {p : List Char × Option Byte}
    (h : p ∈ programLines image) : LineSpells p.1 p.2 := by
  obtain h | h := List.mem_append.1 h
  · obtain ⟨v, -, rfl⟩ := List.mem_map.1 h
    exact lineSpells_binaryDigits v
  · obtain rfl := List.mem_singleton.1 h
    exact lineSpells_nil

theorem filterMap_programLines (image : List Byte) : (programLines image).filterMap Prod.snd = image := by
  simp [programLines, List.filterMap_map]

/-- Settles O5: the text is split into the lines it joins, each is parsed to what it spells, and a bad line stops the
parse. -/
theorem programFileLaunchesItsImage : Obligations.ProgramFileLaunchesItsImage := by
  refine ⟨fun limit lines h => ?spelled, fun limit image => ?image, fun _ => rfl,
    fun limit text line c hline hc h0 h1 => ?bad⟩
  case spelled =>
    by_cases hne : lines = []
    · subst hne; rfl
    · refine launchFile_of_lines (splitLines_intercalate _ (by simpa using hne) ?_) h limit
      intro l hl
      obtain ⟨p, hp, rfl⟩ := List.mem_map.1 hl
      exact (h p hp).1
  case image =>
    rw [launchFile_of_lines (splitLines_programText image) (fun _ => lineSpells_of_mem_programLines) limit,
      filterMap_programLines]
  case bad =>
    have hbad : parseByte (lineContent line) = none := by
      simp [parseByte, binaryValue_none _ hc h0 h1]
    simp only [launchFile, parseLines_none hline (List.ne_nil_of_mem hc) hbad]

end Sys2Proof.Machine
end

section
/-! PROOFS. The family of 41_alu.md and 44_halt_load_output.md: CMP (R123), HLT (R180) and PRN (R182). -/

namespace Sys2Proof.Machine

/-! ### The end of a cycle -/

theorem completeCycle_advancesPc_of_length {ir : Byte} {n : Nat} (hpc : setsPc ir = false) (hlen : instrLength ir = n)
    (s t : State) : AdvancesPc s (completeCycle ir s.pc t) n := hlen ▸ completeCycle_advancesPc hpc s t

theorem Effect.keepsControl {s u : State} {i : Instr} (h : Effect s i u) (hi : i ≠ .hlt) (ir : Byte) (p : PcWord) :
    KeepsControl s (completeCycle ir p u) := by
  obtain ⟨rfl, -⟩ | ⟨-, hstatus⟩ := h.status_cases
  · exact absurd rfl hi
  · exact ⟨(completeCycle_status ir p u).trans hstatus, (completeCycle_fault ir p u).trans h.fault_eq,
      (completeCycle_stepLimit ir p u).trans h.stepLimit_eq⟩

/-! ### CMP (R123) -/

theorem exec_cmp {a b : Byte} {ra rb : Fin Config.registerCount} (ha : a.toNat = ra) (hb : b.toNat = rb) (s : State) :
    ∃ t, exec (.cmp a b) s = .next t ∧ t.flags = compareFlags (s.reg ra) (s.reg rb) ∧ KeepsRegs s t [] ∧
      KeepsMem s t [] ∧ t.out = s.out ∧ KeepsControl s t ∧ AdvancesPc s t 3 := by
  have heff := Effect.cmp (s := s) ha hb
  refine ⟨_, exec_of_effect heff, ?flags, ?regs, ?mem, ?out, heff.keepsControl nofun _ _,
    completeCycle_advancesPc_of_length setsPc_CMP instrLength_CMP s _⟩
  case flags => rw [completeCycle_flags, State.setFlags_flags]
  case regs => intro q _; rw [completeCycle_reg, State.setFlags_reg]
  case mem => intro c _; rw [completeCycle_cell, State.setFlags_cell]
  case out => rw [completeCycle_out, State.setFlags_out]

/-- Settles O37: flags is the whole byte of the comparison, and either operand outside [0,8) is raised. -/
theorem cmpWritesTheComparisonToFlags : Obligations.CmpWritesTheComparisonToFlags := by
  refine fun a b s => ⟨rfl, fun ra rb ha hb => ?completes, fun hinvalid => ?faults⟩
  case completes =>
    obtain ⟨t, hexec, hflags, hframe⟩ := exec_cmp ha hb s
    exact ⟨t, hexec, fun h => hflags.trans (compareFlags_of_eq h), fun h => hflags.trans (compareFlags_of_gt h),
      fun h => hflags.trans (compareFlags_of_lt h), hframe⟩
  case faults => exact exec_invalidRegister_of_pair (i := .cmp a b) rfl hinvalid s

/-! ### HLT (R180) -/

/-- Settles O51: the handler halts, and the loop advances pc by HLT's one byte all the same. -/
theorem hltHalts : Obligations.HltHalts := by
  refine fun s => ⟨rfl, _, exec_of_effect .hlt, ?status, ?pc, ?regs, ?mem, ?flags, ?out, ?fault, ?stepLimit⟩
  case status => rw [completeCycle_status, State.halt_status]
  case pc => exact completeCycle_advancesPc_of_length setsPc_HLT instrLength_HLT s _
  case regs => intro q _; rw [completeCycle_reg, State.halt_reg]
  case mem => intro c _; rw [completeCycle_cell, State.halt_cell]
  case flags => rw [completeCycle_flags, State.halt_flags]
  case out => rw [completeCycle_out, State.halt_out]
  case fault => rw [completeCycle_fault, State.halt_fault]
  case stepLimit => rw [completeCycle_stepLimit, State.halt_stepLimit]

/-! ### PRN (R182) -/

theorem renderOutput_append (out : List Byte) (v : Byte) :
    renderOutput (out ++ [v]) = renderOutput out ++ decimalDigits v ++ [0x0A] := by
  rw [renderOutput, List.flatMap_append, List.flatMap_singleton, List.append_assoc]; rfl

/-- Settles O53: the handler appends the register's byte, whose line the host's text gains, and an operand outside [0,8)
is raised. -/
theorem prnAppendsTheRegister : Obligations.PrnAppendsTheRegister := by
  refine fun a s => ⟨rfl, fun ra ha => ?completes, fun hinvalid => ?faults⟩
  case completes =>
    have heff := Effect.prn (s := s) ha
    refine ⟨_, exec_of_effect heff, ?out, ?text, ?regs, ?mem, ?flags, heff.keepsControl nofun _ _,
      completeCycle_advancesPc_of_length setsPc_PRN instrLength_PRN s _⟩
    case out => rw [completeCycle_out, State.emit_out]
    case text => rw [completeCycle_out, State.emit_out, renderOutput_append]
    case regs => intro q _; rw [completeCycle_reg, State.emit_reg]
    case mem => intro c _; rw [completeCycle_cell, State.emit_cell]
    case flags => rw [completeCycle_flags, State.emit_flags]
  case faults => exact exec_invalidRegister (i := .prn a) (List.mem_singleton_self a) hinvalid s

/-! ### The decimal digits of a byte (92_eei_decisions.md D11) -/

/-- The ASCII code of a number's last decimal digit. -/
def asciiDigit (n : Nat) : Byte := BitVec.ofNat 8 (48 + n % 10)

theorem asciiDigit_toNat (n : Nat) : (asciiDigit n).toNat = 48 + n % 10 := by
  rw [asciiDigit, BitVec.toNat_ofNat]; omega

theorem asciiDigit_range (n : Nat) : 48 ≤ (asciiDigit n).toNat ∧ (asciiDigit n).toNat ≤ 57 := by
  rw [asciiDigit_toNat]; omega

theorem asciiDigit_ne_zero {n : Nat} (h : n % 10 ≠ 0) : asciiDigit n ≠ 48 := fun e => by
  have := congrArg BitVec.toNat e
  rw [asciiDigit_toNat, show (48 : Byte).toNat = 48 from rfl] at this
  omega

/-- One, two or three digits, by the size of the byte. -/
theorem decimalDigits_cases (v : Byte) :
    (v.toNat < 10 ∧ decimalDigits v = [asciiDigit v.toNat]) ∨
    (10 ≤ v.toNat ∧ v.toNat < 100 ∧ decimalDigits v = [asciiDigit (v.toNat / 10), asciiDigit v.toNat]) ∨
    (100 ≤ v.toNat ∧
      decimalDigits v = [asciiDigit (v.toNat / 100), asciiDigit (v.toNat / 10), asciiDigit v.toNat]) := by
  unfold decimalDigits
  split
  · exact .inl ⟨‹_›, rfl⟩
  · split
    · exact .inr (.inl ⟨by omega, ‹_›, rfl⟩)
    · exact .inr (.inr ⟨by omega, rfl⟩)

/-- Settles O54, by the number of digits: the first of two or three is not 0, since the byte is 10 or 100 at least. -/
theorem decimalDigitsDenoteTheByte : Obligations.DecimalDigitsDenoteTheByte := by
  intro v
  have hv := v.isLt
  obtain ⟨h, hd⟩ | ⟨h, h', hd⟩ | ⟨h, hd⟩ := decimalDigits_cases v
  · rw [hd]
    refine ⟨?_, by simp [asciiDigit_range], fun hlen => absurd hlen (by simp)⟩
    simp only [List.foldl_cons, List.foldl_nil, asciiDigit_toNat]
    omega
  · rw [hd]
    refine ⟨?_, by simp [asciiDigit_range], fun _ e => asciiDigit_ne_zero (by omega) (Option.some.inj e)⟩
    simp only [List.foldl_cons, List.foldl_nil, asciiDigit_toNat]
    omega
  · rw [hd]
    refine ⟨?_, by simp [asciiDigit_range], fun _ e => asciiDigit_ne_zero (by omega) (Option.some.inj e)⟩
    simp only [List.foldl_cons, List.foldl_nil, asciiDigit_toNat]
    omega

end Sys2Proof.Machine
end

section
/-! PROOFS. The family of 43_control_flow.md: JEQ (R161), JNE (R162) and the branch after a CMP (10_state.md R29). -/

namespace Sys2Proof.Machine

theorem flagEq_of_set {flags : Byte} (h : flags.getLsbD 0 = true) : flagEq flags = true := h

theorem not_flagEq_of_clear {flags : Byte} (h : flags.getLsbD 0 = false) : ¬ flagEq flags = true := by
  rw [flagEq, h]; exact Bool.false_ne_true

theorem pcPlus_advances {s t : State} {n : Nat} (h : t.pc = pcPlus s.pc n) (hn : n ≤ 3) : AdvancesPc s t n :=
  fun hp => by rw [h, pcPlus_toNat_of_le hp hn]

/-- Settles O48: pc by the EQ bit, everything else but count as before, and an operand outside [0,8) is raised on both
ways. -/
theorem jeqBranchesIfEqualIsSet : Obligations.JeqBranchesIfEqualIsSet := by
  refine fun a s => ⟨rfl, fun ra ha => ?completes, fun hinvalid => ?faults⟩
  case completes =>
    obtain ⟨t, hexec, hpc, hframe⟩ := exec_setsOnlyPc (Effect.jeq (s := s) ha) setsPc_JEQ
    refine ⟨t, hexec, fun heq => ?_, fun hne => ?_, hframe⟩
    · rw [hpc, if_pos (flagEq_of_set heq), pcOfByte_toNat]
    · exact pcPlus_advances (hpc.trans (if_neg (not_flagEq_of_clear hne))) (by omega)
  case faults => exact exec_invalidRegister (i := .jeq a) (List.mem_singleton_self a) hinvalid s

/-- Settles O49: as JEQ, with the two ways exchanged. -/
theorem jneBranchesIfEqualIsClear : Obligations.JneBranchesIfEqualIsClear := by
  refine fun a s => ⟨rfl, fun ra ha => ?completes, fun hinvalid => ?faults⟩
  case completes =>
    obtain ⟨t, hexec, hpc, hframe⟩ := exec_setsOnlyPc (Effect.jne (s := s) ha) setsPc_JNE
    refine ⟨t, hexec, fun hne => ?_, fun heq => ?_, hframe⟩
    · rw [hpc, if_neg (not_flagEq_of_clear hne), pcOfByte_toNat]
    · exact pcPlus_advances (hpc.trans (if_pos (flagEq_of_set heq))) (by omega)
  case faults => exact exec_invalidRegister (i := .jne a) (List.mem_singleton_self a) hinvalid s

/-! ### After a CMP (10_state.md R29) -/

theorem compareFlags_oneSet (x y : Byte) :
    [(compareFlags x y).getLsbD 0, (compareFlags x y).getLsbD 1, (compareFlags x y).getLsbD 2].count true = 1 ∧
      (compareFlags x y).toNat < 8 := by
  obtain h | h | h := compareFlags_cases x y
  · rw [h]; decide
  · rw [h]; decide
  · rw [h]; decide

theorem compareFlags_eqBit_of_eq {x y : Byte} (h : x = y) : (compareFlags x y).getLsbD 0 = true := by
  rw [compareFlags_of_eq (congrArg BitVec.toNat h)]; rfl

theorem compareFlags_eqBit_of_ne {x y : Byte} (h : x ≠ y) : (compareFlags x y).getLsbD 0 = false := by
  obtain hlt | hgt := Nat.lt_or_gt_of_ne fun e => h (BitVec.eq_of_toNat_eq e)
  · rw [compareFlags_of_lt hlt]; rfl
  · rw [compareFlags_of_gt hgt]; rfl

/-- Settles O38: the EQ bit that CMP leaves says whether the registers are equal, and it decides both branches. -/
theorem afterCmpOneFlagIsSetAndDecidesTheBranch : Obligations.AfterCmpOneFlagIsSetAndDecidesTheBranch := by
  intro a b c ra rb rc s t ha hb hc hp h
  obtain ⟨t', hexec, hflags, hregs, -, -, -, hadv⟩ := exec_cmp ha hb s
  obtain rfl : t = t' := Host.Outcome.next.inj (h.symm.trans hexec)
  obtain ⟨-, hjeq, -⟩ := jeqBranchesIfEqualIsSet c t
  obtain ⟨u, hu, uTaken, uNext, -⟩ := hjeq rc hc
  obtain ⟨-, hjne, -⟩ := jneBranchesIfEqualIsClear c t
  obtain ⟨v, hv, vTaken, vNext, -⟩ := hjne rc hc
  rw [hregs rc List.not_mem_nil] at uTaken vTaken
  rw [hflags] at uTaken uNext vTaken vNext ⊢
  refine ⟨compareFlags_oneSet _ _, fun hp' => ⟨u, v, hu, hv, fun heq => ?_, fun hne => ?_⟩⟩
  · have hbit := compareFlags_eqBit_of_eq heq
    exact ⟨uTaken hbit, by rw [vNext hbit hp', hadv hp]⟩
  · have hbit := compareFlags_eqBit_of_ne hne
    exact ⟨by rw [uNext hbit hp', hadv hp], vTaken hbit⟩

end Sys2Proof.Machine
end

section
/-! PROOFS. The family of 42_stack_and_calls.md: PUSH (R140), POP (R141), CALL (R142), the laws of the stack (R144), and
what the stack does at the ends of Memory and to the next fetch (20_memory.md R58, R62). -/

namespace Sys2Proof.Machine

/-! ### A state that a push leaves -/

/-- Memory and the registers of `t` are those of `s` after a push of `v`. -/
def Pushed (s : State) (v : Byte) (t : State) : Prop :=
  t.mem = Memory.write s.mem (pushAddress s) v ∧ t.x = s.decSp.x

theorem Pushed.reg {s t : State} {v : Byte} (h : Pushed s v t) (q : Fin Config.registerCount) :
    t.reg q = s.decSp.reg q := by
  obtain ⟨-, hx⟩ := h
  rw [State.reg, hx, State.reg]

theorem Pushed.sp {s t : State} {v : Byte} (h : Pushed s v t) : t.sp.toNat = pushAddress s := by
  rw [State.sp, h.reg]; rfl

/-- A register read after the decrement (92_eei_decisions.md D7). -/
theorem Pushed.decSp_reg {s t : State} {v : Byte} (h : Pushed s v t) (ra : Fin Config.registerCount) :
    s.decSp.reg ra = if ra = 7 then t.sp else s.reg ra := by
  split
  · subst ra; exact (h.reg 7).symm
  · exact State.reg_decSp_other s ‹_›

theorem Pushed.keepsRegs {s t : State} {v : Byte} (h : Pushed s v t) : KeepsRegs s t [7] := fun q hq => by
  rw [h.reg, State.reg_decSp_other s (List.mem_singleton.not.1 hq)]

theorem Pushed.cell {s t : State} {v : Byte} (h : Pushed s v t) (hwf : Memory.wf s.mem = true) (c : Nat) :
    t.cell c = if c = pushAddress s then v else s.cell c := State.cell_of_mem_eq_write hwf h.1 c

theorem Pushed.cell_pushAddress {s t : State} {v : Byte} (h : Pushed s v t) (hwf : Memory.wf s.mem = true) :
    t.cell (pushAddress s) = v := State.cell_stored hwf h.1

theorem Pushed.keepsMem {s t : State} {v : Byte} (h : Pushed s v t) (hwf : Memory.wf s.mem = true) :
    KeepsMem s t [pushAddress s] := keepsMem_of_mem_eq_write hwf h.1

/-- The end of a cycle changes neither Memory nor the registers. -/
theorem pushed_completeCycle {s u : State} {v : Byte} (h : Pushed s v u) (ir : Byte) (p : PcWord) :
    Pushed s v (completeCycle ir p u) := by
  obtain ⟨hmem, hx⟩ := h
  exact ⟨(completeCycle_mem ir p u).trans hmem, (completeCycle_x ir p u).trans hx⟩

/-! ### PUSH, POP and CALL -/

theorem exec_push {a : Byte} {ra : Fin Config.registerCount} (ha : a.toNat = ra) (s : State) :
    ∃ t, exec (.push a) s = .next t ∧ Pushed s (s.decSp.reg ra) t ∧ t.flags = s.flags ∧ t.out = s.out ∧
      KeepsControl s t ∧ AdvancesPc s t 2 := by
  have heff := Effect.push (s := s) ha
  refine ⟨_, exec_of_effect heff, ?pushed, ?flags, ?out, heff.keepsControl nofun _ _,
    completeCycle_advancesPc_of_length setsPc_PUSH instrLength_PUSH s _⟩
  case pushed => refine pushed_completeCycle ?_ _ _; exact ⟨rfl, rfl⟩
  case flags => rw [completeCycle_flags, State.setMem_flags, State.decSp_flags]
  case out => rw [completeCycle_out, State.setMem_out, State.decSp_out]

theorem exec_call {a : Byte} {ra : Fin Config.registerCount} (ha : a.toNat = ra) (s : State) :
    ∃ t, exec (.call a) s = .next t ∧ Pushed s (returnByte s.pc) t ∧ t.pc = pcOfByte (s.decSp.reg ra) ∧
      t.flags = s.flags ∧ t.out = s.out ∧ KeepsControl s t := by
  have heff := Effect.call (s := s) ha
  refine ⟨_, exec_of_effect heff, ?pushed, ?pc, ?flags, ?out, heff.keepsControl nofun _ _⟩
  case pushed => refine pushed_completeCycle ?_ _ _; exact ⟨rfl, rfl⟩
  case pc => rw [completeCycle_pc_of_setsPc (ir := opcodeOf (.call a)) setsPc_CALL, State.setPc_pc]
  case flags => rw [completeCycle_flags, State.setPc_flags, State.setMem_flags, State.decSp_flags]
  case out => rw [completeCycle_out, State.setPc_out, State.setMem_out, State.decSp_out]

/-- Settles O39: a push of the register as it reads after the decrement, and an operand outside [0,8) is raised. -/
theorem pushStoresBelowTheStackPointer : Obligations.PushStoresBelowTheStackPointer := by
  refine fun a s hwf => ⟨rfl, fun ra ha => ?completes, fun hinvalid => ?faults⟩
  case completes =>
    obtain ⟨t, hexec, hpush, hframe⟩ := exec_push ha s
    refine ⟨t, hexec, pushAddress_eq s, hpush.sp, ?_, hpush.keepsRegs, hpush.keepsMem hwf, hframe⟩
    rw [hpush.cell_pushAddress hwf, hpush.decSp_reg]
  case faults => exact exec_invalidRegister (i := .push a) (List.mem_singleton_self a) hinvalid s

/-- Settles O41: a push of the return address, and a jump to the register as it reads after the decrement. -/
theorem callPushesTheReturnAddressAndJumps : Obligations.CallPushesTheReturnAddressAndJumps := by
  refine fun a s hwf => ⟨rfl, fun ra ha => ?completes, fun hinvalid => ?faults⟩
  case completes =>
    obtain ⟨t, hexec, hpush, hpc, hframe⟩ := exec_call ha s
    refine ⟨t, hexec, pushAddress_eq s, hpush.sp, fun hp => ?_, ?_, hpush.keepsRegs, hpush.keepsMem hwf, hframe⟩
    · rw [hpush.cell_pushAddress hwf, returnByte_toNat hp]
    · rw [hpc, pcOfByte_toNat, hpush.decSp_reg, apply_ite BitVec.toNat]
  case faults => exact exec_invalidRegister (i := .call a) (List.mem_singleton_self a) hinvalid s

/-- Settles O40: the popped byte goes to register a and sp is incremented after it, R7 itself where a is 7. -/
theorem popLoadsFromTheStackPointer : Obligations.PopLoadsFromTheStackPointer := by
  refine fun a s => ⟨rfl, fun ra ha => ?completes, fun hinvalid => ?faults⟩
  case completes =>
    have heff := Effect.pop (s := s) ha
    refine ⟨_, exec_of_effect heff, fun hne => ?other, fun heq => ?seven, ?regs, ?mem, ?flags, ?out,
      heff.keepsControl nofun _ _, completeCycle_advancesPc_of_length setsPc_POP instrLength_POP s _⟩
    case other =>
      have hsp : (s.setReg ra (s.cell s.sp.toNat)).sp = s.sp := State.reg_setReg_other s _ (Ne.symm hne)
      constructor
      · rw [completeCycle_reg, State.reg_incSp_other _ hne, State.reg_setReg_same]
      · rw [completeCycle_sp, State.sp_incSp, hsp, incByte_toNat]
    case seven =>
      have hsp : (s.setReg ra (s.cell s.sp.toNat)).sp = s.cell s.sp.toNat := by
        subst ra; exact State.reg_setReg_same s _ _
      rw [completeCycle_sp, State.sp_incSp, hsp, incByte_toNat]
    case regs =>
      intro q hq
      simp only [List.mem_cons, List.not_mem_nil, or_false, not_or] at hq
      rw [completeCycle_reg, State.reg_incSp_other _ hq.2, State.reg_setReg_other s _ hq.1]
    case mem => intro c _; rw [completeCycle_cell, State.incSp_cell, State.setReg_cell]
    case flags => rw [completeCycle_flags, State.incSp_flags, State.setReg_flags]
    case out => rw [completeCycle_out, State.incSp_out, State.setReg_out]
  case faults => exact exec_invalidRegister (i := .pop a) (List.mem_singleton_self a) hinvalid s

/-! ### The laws of the stack (42_stack_and_calls.md R144) -/

/-- What a pop adds to sp undoes what a push took from it. -/
theorem sp_of_push_pop {s t u : State} (ht : t.sp.toNat = (s.sp.toNat + 255) % 256)
    (hu : u.sp.toNat = (t.sp.toNat + 1) % 256) : u.sp = s.sp := by
  apply BitVec.eq_of_toNat_eq
  have := s.sp.isLt
  omega

/-- Settles O43: register a is given back the pushed byte, sp its value, and the others are kept by both. -/
theorem pushThenPopRestoresTheRegisters : Obligations.PushThenPopRestoresTheRegisters := by
  intro a ra s hwf ha
  obtain ⟨-, hpush, -⟩ := pushStoresBelowTheStackPointer a s hwf
  obtain ⟨t, ht, haddr, htsp, htcell, htregs, htmem, -⟩ := hpush ra ha
  obtain ⟨-, hpop, -⟩ := popLoadsFromTheStackPointer a t
  obtain ⟨u, hu, hother, hseven, huregs, humem, -⟩ := hpop ra ha
  rw [← htsp] at htcell htmem
  have hsp : u.sp = s.sp := by
    refine sp_of_push_pop (htsp.trans haddr) ?_
    by_cases hra : ra = 7
    · rw [hseven hra, htcell, if_pos hra]
    · exact (hother hra).2
  refine ⟨t, u, ht, hu, State.x_ext fun q => ?_, ?_, ?_⟩
  · by_cases hq7 : q = 7
    · subst hq7; exact hsp
    · by_cases hqa : q = ra
      · subst hqa; rw [(hother hq7).1, htcell, if_neg hq7]
      · rw [huregs q (by simp [hqa, hq7]), htregs q (by simp [hq7])]
  · rw [← haddr, ← htsp]; exact humem _ List.not_mem_nil
  · rw [← haddr, ← htsp]
    exact fun c hc => (humem c List.not_mem_nil).trans (htmem c hc)

/-- Settles O44: RET loads the byte that CALL stored, which is the return address, and gives sp back its value. -/
theorem callThenRetReturnsAfterTheCall : Obligations.CallThenRetReturnsAfterTheCall := by
  intro a ra s hwf ha hp
  obtain ⟨-, hcall, -⟩ := callPushesTheReturnAddressAndJumps a s hwf
  obtain ⟨t, ht, haddr, htsp, htcell, -⟩ := hcall ra ha
  refine ⟨t, ht, fun u husp hucell => ?_⟩
  obtain ⟨-, v, hv, hvpc, hvsp, -⟩ := retPopsThePc u
  refine ⟨v, hv, ?_, ?_⟩
  · rw [hvpc, hucell, htsp, htcell hp]
  · rw [husp] at hvsp
    exact sp_of_push_pop (htsp.trans haddr) hvsp

/-! ### The stack at the ends of Memory (20_memory.md R58) -/

/-- Settles O45, from the rules of PUSH and POP at sp = 0x00 and sp = 0xFF: their control is kept there too. -/
theorem stackPointerWraps : Obligations.StackPointerWraps := by
  refine fun a ra s hwf ha => ⟨fun hsp => ?push, fun hsp => ?pop⟩
  case push =>
    obtain ⟨-, hpush, -⟩ := pushStoresBelowTheStackPointer a s hwf
    obtain ⟨t, ht, haddr, htsp, htcell, -, htmem, hflags, hout, hcontrol, -⟩ := hpush ra ha
    have haddr' : pushAddress s = 0xFF := by rw [haddr, hsp]; rfl
    have htsp' : t.sp = 0xFF := BitVec.eq_of_toNat_eq (htsp.trans haddr')
    rw [haddr'] at htcell htmem
    exact ⟨t, ht, htsp', by rw [htcell, htsp'], htmem, hcontrol, hflags, hout⟩
  case pop =>
    obtain ⟨-, hpop, -⟩ := popLoadsFromTheStackPointer a s
    obtain ⟨t, ht, hother, hseven, -, htmem, hflags, hout, hcontrol, -⟩ := hpop ra ha
    rw [hsp] at hother hseven
    refine ⟨t, ht, ?_, htmem, hcontrol, hflags, hout⟩
    split
    · exact hseven ‹_›
    · obtain ⟨hreg, hwrap⟩ := hother ‹_›
      exact ⟨BitVec.eq_of_toNat_eq hwrap, hreg⟩

/-! ### The next fetch (20_memory.md R62) -/

theorem fetchWindow_eq_map {t : State} (h : t.pc.toNat ≤ 253) :
    ∃ w, fetchWindow t = .ok w ∧ [w.ir, w.a, w.b] = (List.range 3).map fun k => t.cell (t.pc.toNat + k) :=
  ⟨bytesAtPc t, fetchWindow_inRange h, rfl⟩

theorem toList_getD_eq_reg (s : State) (ra : Fin Config.registerCount) : s.x.toList.getD ra 0 = s.reg ra := by
  simp [State.reg]

theorem exists_register_of_wellFormed {i : Instr} {r : Byte} (h : i.wellFormed = true) (hr : r ∈ i.registerOperands) :
    ∃ q : Fin Config.registerCount, r.toNat = q := by
  simp only [Instr.wellFormed, List.all_eq_true, decide_eq_true_eq] at h
  exact ⟨⟨r.toNat, h r hr⟩, rfl⟩

/-- Settles O46: the window's bytes are those of Memory after the push, whose stored byte each form gives. -/
theorem nextFetchSeesTheStoredByte : Obligations.NextFetchSeesTheStoredByte := by
  intro i s t hwf _ hwell hi h hp
  obtain ⟨w, hw, hbytes⟩ := fetchWindow_eq_map hp
  refine ⟨w, hw, hbytes.trans (List.map_congr_left fun k _ => ?_)⟩
  obtain ⟨a, rfl⟩ | ⟨a, rfl⟩ := hi
  · obtain ⟨ra, ha⟩ := exists_register_of_wellFormed hwell (List.mem_singleton_self a)
    obtain ⟨t', hexec, hpush, -⟩ := exec_push ha s
    obtain rfl : t = t' := Host.Outcome.next.inj (h.symm.trans hexec)
    have hstored : s.decSp.reg ra = if a.toNat = 7 then t.sp else s.x.toList.getD a.toNat 0 := by
      rw [hpush.decSp_reg, ha, toList_getD_eq_reg]
      simp only [Fin.ext_iff]
      rfl
    rw [hpush.cell hwf, hstored]
  · obtain ⟨ra, ha⟩ := exists_register_of_wellFormed hwell (List.mem_singleton_self a)
    obtain ⟨t', hexec, hpush, -⟩ := exec_call ha s
    obtain rfl : t = t' := Host.Outcome.next.inj (h.symm.trans hexec)
    rw [hpush.cell hwf, returnByte]

end Sys2Proof.Machine
end

section
/-! PROOFS. The codes of the status register (10_state.md R30, 60_exceptions.md R200). -/

namespace Sys2Proof.Machine

theorem FaultKind.code_range (k : FaultKind) : k.code ≠ 0 ∧ k.code.toNat ≤ 5 := by
  cases k <;> decide

theorem FaultKind.code_injective {k k' : FaultKind} (h : k.code = k'.code) : k = k' := by
  revert h
  cases k <;> cases k' <;> decide

/-- Settles O55: the two live codes are 0, and each kind has a code of its own that is not. -/
theorem statusCodesAgree : Obligations.StatusCodesAgree := by
  refine ⟨fun st => ?codes, fun st st' hstate hcause => ?injective, rfl, rfl, fun _ => rfl, rfl, rfl, rfl, rfl, rfl⟩
  case codes =>
    cases st with
    | running => decide
    | halted => decide
    | faulted k => exact ⟨le_refl 2, k.code_range.2, fun _ => rfl, fun _ => k.code_range.1⟩
  case injective =>
    cases st with
    | running =>
      cases st' with
      | running => rfl
      | halted => cases hstate
      | faulted k => cases hstate
    | halted =>
      cases st' with
      | running => cases hstate
      | halted => rfl
      | faulted k => cases hstate
    | faulted k =>
      cases st' with
      | running => cases hstate
      | halted => cases hstate
      | faulted k' => rw [FaultKind.code_injective hcause]

end Sys2Proof.Machine
end
